-- ==== Sys2Proof/Word.lean ====
section
/-! DEFINITION. The word (00_scope.md R6, R8 and the glossary): "a 16-bit unsigned value, the machine's only data
unit". Memory cells, registers, stack entries, operand words, input words and the pc are words (92_eei_decisions.md
D2); a byte is a character of the output stream or one half of a word of the program image. -/

namespace Sys2Proof

/-- A word: a memory cell, a register, a stack entry, an operand word, an input word or the pc (R6 WORD_BITS, PC_BITS,
IN_BITS; R20, R24, R29, R51). Read as an unsigned number 0..65535, never as signed (R8). -/
abbrev Word := BitVec 16

/-- A byte: a character sent by `out` (R6 OUT_BITS, R180) or one byte of the program image (R53, R242). -/
abbrev Byte := BitVec 8

end Sys2Proof
end

