-- ==== Sys2Proof/Config.lean ====
section
/-! DEFINITION. The implementation parameters of 00_scope.md R6, each in one place (93_implementation_defined.md I13
asks for a configuration record, so that a corrected literal changes one line; 92_eei_decisions.md D24 takes the
literals as printed), and the one OPEN parameter, STACK_DEPTH (D12, I2), as a plain-data record that State carries. -/

namespace Sys2Proof

/-- The parameter the spec leaves OPEN. `stackDepth` is STACK_DEPTH (R6, R29, D12, I2): `some n` is a stack of n
entries (the spec asks n ≥ 1), `none` is the source's unbounded stack. State carries this record and no step changes
it, so a statement about every state holds for every capacity (log entry 2). -/
structure Config where
  stackDepth : Option Nat
  deriving DecidableEq, Repr

/-- D12: STACK_DEPTH is "a natural number ≥ 1, or unbounded". -/
abbrev Config.wf (c : Config) : Prop := c.stackDepth ≠ some 0

/-- STACK_DEPTH unbounded, which R29 allows a model to take: the configuration at reset (log entry 2). -/
def Config.unbounded : Config := ⟨none⟩

/-- MEM_WORDS (R6): memory is the 32768 words at addresses 0..32767. -/
@[simp] abbrev Config.memWords : Nat := 32768

/-- The storage of the memory in bytes (R51: "32768 words (65536 bytes of storage)"). -/
@[simp] abbrev Config.memBytes : Nat := 65536

/-- REG_BASE (R6): the register token of register 0. -/
@[simp] abbrev Config.regBase : Nat := 32768

/-- INVALID_MIN (R6): the first operand word that names nothing. -/
@[simp] abbrev Config.invalidMin : Nat := 32776

/-- ARITH_MOD (R6): the modulus of add and mult. -/
@[simp] abbrev Config.arithMod : Nat := 32768

/-- NOT_MASK (R6): the 15 bits that not complements. -/
@[simp] abbrev Config.notMask : Word := 0x7FFF

/-- RESET_PC (R6, D3): the entry point. -/
@[simp] abbrev Config.resetPc : Word := 0

/-- The newline character the debugger appends after a text line (R229; general knowledge of the spec's own, G1). -/
def Config.newline : Word := 10

/-- Whether an image that is both odd and too long is reported as odd (FAULT_VALUE 1) or as too long (2): the spec lists
both values and does not say which one wins, so this is a free value, the choice being bounded to the two (R201, R243;
log entry 6). -/
opaque Config.oddReportedFirst : List Byte → Bool

end Sys2Proof
end

