-- ==== Sys2Proof/Syntax.lean ====
section
/-! DEFINITION. The syntax of the 22 instructions (30_encoding.md R70 to R73): one constructor per row of
spec/opcode_table.json, operands in table order. An operand is kept by its class (R72); the role that an instruction
gives it (D, V or A) is not part of the operand: the instruction's meaning applies `dest` or `resolve` to it
(40_step_and_operands.md R103). -/

namespace Sys2Proof

/-- The three classes of an operand word (R72). An invalid word is a legal part of an instruction: it raises
InvalidAddress only when an executing instruction classifies it (R77), so it is kept as the word itself. -/
inductive Operand where
  /-- Words 0..32767: the value itself, or the memory address. -/
  | literal (v : BitVec 15)
  /-- Words 32768..32775: register i = w - 32768. -/
  | register (i : Fin 8)
  /-- Words 32776..65535: names nothing. -/
  | invalid (w : Word)
  deriving DecidableEq, Repr

/-- The instructions of the opcode table (R73). `inp` is the row "in" (a word Lean keeps for itself). -/
inductive Instr where
  | halt
  | set (a b : Operand)
  | push (a : Operand)
  | pop (a : Operand)
  | eq (a b c : Operand)
  | gt (a b c : Operand)
  | jmp (a : Operand)
  | jt (a b : Operand)
  | jf (a b : Operand)
  | add (a b c : Operand)
  | mult (a b c : Operand)
  | mod (a b c : Operand)
  | and (a b c : Operand)
  | or (a b c : Operand)
  | not (a b : Operand)
  | rmem (a b : Operand)
  | wmem (a b : Operand)
  | call (a : Operand)
  | ret
  | out (a : Operand)
  | inp (a : Operand)
  | noop
  deriving DecidableEq, Repr

/-- The operands of an instruction in table order (R73). -/
def Instr.operands : Instr → List Operand
  | .halt => []
  | .set a b => [a, b]
  | .push a => [a]
  | .pop a => [a]
  | .eq a b c => [a, b, c]
  | .gt a b c => [a, b, c]
  | .jmp a => [a]
  | .jt a b => [a, b]
  | .jf a b => [a, b]
  | .add a b c => [a, b, c]
  | .mult a b c => [a, b, c]
  | .mod a b c => [a, b, c]
  | .and a b c => [a, b, c]
  | .or a b c => [a, b, c]
  | .not a b => [a, b]
  | .rmem a b => [a, b]
  | .wmem a b => [a, b]
  | .call a => [a]
  | .ret => []
  | .out a => [a]
  | .inp a => [a]
  | .noop => []

/-- The length of an instruction in words: its opcode word and its operand words (R70, R79). -/
def Instr.length (i : Instr) : Nat := 1 + i.operands.length

end Sys2Proof
end

