-- ==== Sys2Proof/WellFormed.lean ====
section
/-! DEFINITION. Which terms of the syntax stand for instructions in memory: an operand is in the class its word's value
puts it in (30_encoding.md R72). Literals and registers hold by their types; only `invalid` needs a check. -/

namespace Sys2Proof

/-- R72: an invalid operand holds a word of 32776..65535, so that each operand word has exactly one form. -/
def Operand.wf : Operand → Bool
  | .literal _ => true
  | .register _ => true
  | .invalid w => decide (Config.invalidMin ≤ w.toNat)

/-- Every operand of the instruction is in its class (R72). -/
def Instr.wf (i : Instr) : Bool := i.operands.all Operand.wf

end Sys2Proof
end

