-- ==== Sys2Proof/Decode.lean ====
section
/-! DEFINITION. Decoding and encoding (30_encoding.md R70 to R79). A decoder of words (an instruction is one opcode
word and 0 to 3 operand words), total, with two named rejections; the encoder from the same table; the opcode table
itself as rows (R73, R74); the byte order of the image (20_memory.md R53); and the assembly spelling (R80, R81). -/

namespace Sys2Proof

/-- The two ways a list of words is no instruction. -/
inductive DecodeError where
  /-- The opcode word is 22..65535 (R76). -/
  | illegalOpcode (op : Word)
  /-- Word k of the instruction is not there: the list ends before it (k = 0: no opcode word). -/
  | missingWord (k : Nat)
  deriving DecidableEq, Repr

/-! ### Byte order of the image (R53) -/

/-- `byte[2k] | (byte[2k+1] << 8)` (R53): the first byte of a pair is the low one. -/
def wordOfBytes (lo hi : Byte) : Word := hi ++ lo

/-- Bits 7..0 of a word. -/
def lowByte (w : Word) : Byte := w.extractLsb' 0 8

/-- Bits 15..8 of a word. -/
def highByte (w : Word) : Byte := w.extractLsb' 8 8

/-- The words of a list of bytes, little-endian; a last odd byte forms no word. -/
def wordsOfBytes : List Byte → List Word
  | lo :: hi :: rest => wordOfBytes lo hi :: wordsOfBytes rest
  | _ => []

/-- The bytes of a list of words, little-endian. -/
def bytesOfWords : List Word → List Byte
  | [] => []
  | w :: rest => lowByte w :: highByte w :: bytesOfWords rest

/-! ### Operand words (R72) -/

/-- The class of an operand word (R72): literal up to 32767, register token 32768..32775, invalid from 32776. -/
def Operand.ofWord (w : Word) : Operand :=
  if w.toNat < Config.regBase then .literal (w.setWidth 15)
  else if w.toNat < Config.invalidMin then .register (Fin.ofNat 8 (w.toNat - Config.regBase))
  else .invalid w

/-- The operand word of an operand: the literal zero-extended, the register token 32768 + i, or the word itself. -/
def Operand.toWord : Operand → Word
  | .literal v => v.setWidth 16
  | .register i => BitVec.ofNat 16 (Config.regBase + i.val)
  | .invalid w => w

/-! ### The opcode table (R73) -/

/-- The opcode word of an instruction (R73, R75). -/
def Instr.opcode : Instr → Word
  | .halt => 0
  | .set _ _ => 1
  | .push _ => 2
  | .pop _ => 3
  | .eq _ _ _ => 4
  | .gt _ _ _ => 5
  | .jmp _ => 6
  | .jt _ _ => 7
  | .jf _ _ => 8
  | .add _ _ _ => 9
  | .mult _ _ _ => 10
  | .mod _ _ _ => 11
  | .and _ _ _ => 12
  | .or _ _ _ => 13
  | .not _ _ => 14
  | .rmem _ _ => 15
  | .wmem _ _ => 16
  | .call _ => 17
  | .ret => 18
  | .out _ => 19
  | .inp _ => 20
  | .noop => 21

/-- The mnemonic of an instruction (R73). -/
def Instr.mnemonic : Instr → String
  | .halt => "halt"
  | .set _ _ => "set"
  | .push _ => "push"
  | .pop _ => "pop"
  | .eq _ _ _ => "eq"
  | .gt _ _ _ => "gt"
  | .jmp _ => "jmp"
  | .jt _ _ => "jt"
  | .jf _ _ => "jf"
  | .add _ _ _ => "add"
  | .mult _ _ _ => "mult"
  | .mod _ _ _ => "mod"
  | .and _ _ _ => "and"
  | .or _ _ _ => "or"
  | .not _ _ => "not"
  | .rmem _ _ => "rmem"
  | .wmem _ _ => "wmem"
  | .call _ => "call"
  | .ret => "ret"
  | .out _ => "out"
  | .inp _ => "in"
  | .noop => "noop"

/-- The roles of operands (R11): D a raw destination token, V a value-resolved source, A a value-resolved address that
is then read. -/
inductive Role where
  | D
  | V
  | A
  deriving DecidableEq, Repr

/-- The roles of an instruction's operands, in table order (R73, with rmem's A operand by 90_conflicts.md C4 and in's D
operand by C5). -/
def Instr.roles : Instr → List Role
  | .halt => []
  | .set _ _ => [.D, .V]
  | .push _ => [.V]
  | .pop _ => [.D]
  | .eq _ _ _ => [.D, .V, .V]
  | .gt _ _ _ => [.D, .V, .V]
  | .jmp _ => [.V]
  | .jt _ _ => [.V, .V]
  | .jf _ _ => [.V, .V]
  | .add _ _ _ => [.D, .V, .V]
  | .mult _ _ _ => [.D, .V, .V]
  | .mod _ _ _ => [.D, .V, .V]
  | .and _ _ _ => [.D, .V, .V]
  | .or _ _ _ => [.D, .V, .V]
  | .not _ _ => [.D, .V]
  | .rmem _ _ => [.D, .A]
  | .wmem _ _ => [.V, .V]
  | .call _ => [.V]
  | .ret => []
  | .out _ => [.V]
  | .inp _ => [.D]
  | .noop => []

/-! ### Decoding (R70, R71, R76, R79) -/

/-- Format F1: one operand word follows the opcode word. -/
def decodeF1 (mk : Operand → Instr) : List Word → Except DecodeError (Instr × List Word)
  | a :: rest => .ok (mk (.ofWord a), rest)
  | [] => .error (.missingWord 1)

/-- Format F2: two operand words follow the opcode word. -/
def decodeF2 (mk : Operand → Operand → Instr) : List Word → Except DecodeError (Instr × List Word)
  | a :: b :: rest => .ok (mk (.ofWord a) (.ofWord b), rest)
  | [_] => .error (.missingWord 2)
  | [] => .error (.missingWord 1)

/-- Format F3: three operand words follow the opcode word. -/
def decodeF3 (mk : Operand → Operand → Operand → Instr) :
    List Word → Except DecodeError (Instr × List Word)
  | a :: b :: c :: rest => .ok (mk (.ofWord a) (.ofWord b) (.ofWord c), rest)
  | [_, _] => .error (.missingWord 3)
  | [_] => .error (.missingWord 2)
  | [] => .error (.missingWord 1)

/-- Decoding (R70, R71, R92): the whole opcode word selects the row; operand words are only put in their classes, which
never fails (R77). Answers the instruction and the words after it, or the first missing word, or the illegal opcode. -/
def decodeWords : List Word → Except DecodeError (Instr × List Word)
  | [] => .error (.missingWord 0)
  | op :: ws =>
    match op.toNat with
    | 0 => .ok (.halt, ws)
    | 1 => decodeF2 .set ws
    | 2 => decodeF1 .push ws
    | 3 => decodeF1 .pop ws
    | 4 => decodeF3 .eq ws
    | 5 => decodeF3 .gt ws
    | 6 => decodeF1 .jmp ws
    | 7 => decodeF2 .jt ws
    | 8 => decodeF2 .jf ws
    | 9 => decodeF3 .add ws
    | 10 => decodeF3 .mult ws
    | 11 => decodeF3 .mod ws
    | 12 => decodeF3 .and ws
    | 13 => decodeF3 .or ws
    | 14 => decodeF2 .not ws
    | 15 => decodeF2 .rmem ws
    | 16 => decodeF2 .wmem ws
    | 17 => decodeF1 .call ws
    | 18 => .ok (.ret, ws)
    | 19 => decodeF1 .out ws
    | 20 => decodeF1 .inp ws
    | 21 => .ok (.noop, ws)
    | _ => .error (.illegalOpcode op)

/-- Decoding from the bytes of the image (R53). -/
def decodeBytes (bs : List Byte) : Except DecodeError (Instr × List Word) := decodeWords (wordsOfBytes bs)

/-- The words of an instruction: the opcode word and the operand words in table order (R70, R73). -/
def encode (i : Instr) : List Word := i.opcode :: i.operands.map Operand.toWord

/-! ### Words numbered as spec/opcode_table.json numbers them -/

/-- Word k of an instruction whose bits are w: bits 16k+15..16k, those from nbits on being 0. -/
def tableWord (nbits w k : Nat) : Word := BitVec.ofNat 16 ((w % 2 ^ nbits) / 2 ^ (16 * k))

/-- The four words (the longest instruction, R6 MAX_INSN_WORDS) of an instruction whose bits are w. -/
def tableWords (nbits w : Nat) : List Word :=
  [tableWord nbits w 0, tableWord nbits w 1, tableWord nbits w 2, tableWord nbits w 3]

/-- The instruction the decoder reads from an instruction whose bits are w. -/
def decodeTableWord (nbits w : Nat) : Option Instr :=
  match decodeWords (tableWords nbits w) with
  | .ok (i, _) => some i
  | .error _ => none

/-! ### Assembly spelling (R80 to R83) -/

/-- A literal is a bare decimal number, a register `$i` (R80, R83), an invalid word `#w` (R81). -/
def Operand.asm : Operand → String
  | .literal v => toString v.toNat
  | .register i => "$" ++ toString i.val
  | .invalid w => "#" ++ toString w.toNat

/-- The mnemonic, then the operands in table order, separated by spaces (R80, R82). -/
def Instr.asm (i : Instr) : String := String.intercalate " " (i.mnemonic :: i.operands.map Operand.asm)

end Sys2Proof
end

