-- ==== Sys2Proof/Machine/State.lean ====
section
/-! DEFINITION. The machine's state as plain data (10_state.md R20 to R35), the reasons a step of the model can stop,
and the state after reset (R35). -/

namespace Sys2Proof.Machine

/-- Memory (20_memory.md R50, R51, R30): the 65536 bytes that store the 32768 words, byte 2k the low and byte 2k+1 the
high half of word k, in the order of the image (R53). Listed by address, strictly rising, no byte equal to
`unlistedByte`; no instruction reaches a byte of it alone (log entry 1). -/
abbrev Memory := List Host.Cell

/-- What an address that is not listed reads as: memory is zero-filled at reset (R35, R242). -/
def unlistedByte : Byte := 0

/-- The canonical form of a memory: addresses strictly rising, inside the storage, no entry equal to what an unlisted
address reads as. -/
abbrev Memory.wf (m : Memory) : Prop :=
  m.Pairwise (fun c d => c.1 < d.1) ∧ ∀ c ∈ m, c.2 ≠ unlistedByte ∧ c.1 < Config.memBytes

/-- The STATE field (R31). -/
inductive RunState where
  | running
  | paused
  | halted
  | faulted
  deriving DecidableEq, Repr

/-- The encodings of STATE (R31, R32). -/
def RunState.code : RunState → BitVec 2
  | .running => 0
  | .paused => 1
  | .halted => 2
  | .faulted => 3

/-- The PAUSE_CAUSE field (R32). -/
inductive PauseCause where
  | none
  | input
  | breakpoint
  | host
  deriving DecidableEq, Repr

/-- The encodings of PAUSE_CAUSE (R32). -/
def PauseCause.code : PauseCause → BitVec 2
  | .none => 0
  | .input => 1
  | .breakpoint => 2
  | .host => 3

/-- The FAULT_CODE field (R32, 60_exceptions.md R200): no fault yet, or the fault that was raised. Code 7 is reserved
and never written. -/
inductive FaultCode where
  | none
  | invalidAddress
  | illegalOpcode
  | stackUnderflow
  | divideByZero
  | stackOverflow
  | malformedImage
  deriving DecidableEq, Repr

/-- The encodings of FAULT_CODE (R32, R200). -/
def FaultCode.code : FaultCode → BitVec 3
  | .none => 0
  | .invalidAddress => 1
  | .illegalOpcode => 2
  | .stackUnderflow => 3
  | .divideByZero => 4
  | .stackOverflow => 5
  | .malformedImage => 6

/-- What `raise E(v)` carries (00_scope.md R9): the fault kind and the fault value. -/
structure Raised where
  code : FaultCode
  value : Word
  deriving DecidableEq, Repr

/-- The status record (R32), read-only to the host and out of every instruction's reach. -/
structure Status where
  /-- STATE. -/
  state : RunState
  /-- PAUSE_CAUSE. -/
  pauseCause : PauseCause
  /-- FAULT_CODE. -/
  faultCode : FaultCode
  /-- FAULT_VALUE. -/
  faultValue : Word
  /-- FAULT_PC. -/
  faultPc : Word
  deriving DecidableEq, Repr

/-- The host's commands (60_exceptions.md R220). -/
inductive HostCmd where
  /-- RESET(image), the bytes of the image (R240). -/
  | reset (image : List Byte)
  /-- RUN (R222). -/
  | run
  /-- STEP (R223). -/
  | step
  /-- STOP (R221). -/
  | stop
  /-- BREAK(a) (R225). -/
  | breakAt (a : Word)
  /-- SETREG(r, v) (R227). -/
  | setReg (r : Fin 8) (v : Word)
  /-- SETPC(a) (R228). -/
  | setPc (a : Word)
  /-- ENQUEUE(ws) (R229). -/
  | enqueue (ws : List Word)
  /-- SNAPSHOT (R226). -/
  | snapshot
  /-- EXIT (R220). -/
  | exit
  deriving DecidableEq, Repr

/-- One command of the host and when it is given: after `after` more steps of a running block; at once, between steps,
when `after` is 0 or the block is not running (R220; log entry 3). -/
structure HostAction where
  after : Nat
  cmd : HostCmd
  deriving DecidableEq, Repr

/-- The whole machine: the block (R20 to R32), its ports (R51, R180, R183), the host-side state beside it (R34), what the
host is going to do (log entry 3) and the implementation's parameter (log entry 2). -/
structure State where
  /-- The general registers x[0] .. x[7] (R20). -/
  regs : Vector Word 8
  /-- The program counter, the source's "cursor" (R24). -/
  pc : Word
  /-- Memory (R30, R50). -/
  mem : Memory
  /-- The call stack, its top first (R29). -/
  stack : List Word
  /-- The status record (R32). -/
  status : Status
  /-- The output stream: the characters sent since reset, oldest first (R51, R180). -/
  output : List Byte
  /-- The input queue, its head first (R34, R183). -/
  input : List Word
  /-- BREAK_EN (R34). -/
  breakEn : Bool
  /-- BREAK_ADDR (R34). -/
  breakAddr : Word
  /-- FORCE (R34, R224). -/
  force : Bool
  /-- What the host is going to do, oldest first (log entry 3). -/
  pending : List HostAction
  /-- The implementation's parameter STACK_DEPTH (R6, log entry 2). -/
  cfg : Config
  deriving DecidableEq, Repr

/-- Why the model has no next state. The spec's own faults are no reason to stop: they are entries to the state FAULTED
(R203), a next state. Each of these says that the block executes nothing and the host has nothing pending. All are safe:
the machine stays as it is for ever, and the model says so by answering no next state. -/
inductive Fault where
  /-- Raised by `step` in PAUSED with no host command pending: "the block has no step until the host supplies input and
  resumes" (93_implementation_defined.md I1, R31). Safe. -/
  | paused
  /-- Raised by `step` in HALTED with no host command pending: HALTED is terminal (R31, R230). Safe. -/
  | halted
  /-- Raised by `step` in FAULTED with no host command pending: FAULTED is terminal (R31, R206). Safe. -/
  | faulted
  deriving DecidableEq, Repr

/-- What the model gives no meaning. -/
inductive Refusal where
  /-- An instruction with no meaning yet; no arm of `exec` answers so. Safe. -/
  | notModelled (mnemonic : String)
  /-- Answered by `step` for a host command whose precondition in R220 does not hold and whose effect the spec then
  leaves unsaid: STEP in RUNNING, STOP outside RUNNING (92_eei_decisions.md D20; log entry 5). Safe. -/
  | hostCommandUnsaid (cmd : HostCmd)
  deriving DecidableEq, Repr

/-- A step's outcome. -/
abbrev Result := Host.Outcome State Fault Refusal

/-- The status record after reset (R35, R32): PAUSED by the host, no fault. -/
def Status.reset : Status :=
  { state := .paused, pauseCause := .host, faultCode := .none, faultValue := 0, faultPc := 0 }

/-- The state after reset (R35, 70_reset_and_hazards.md R240) with the empty image, so that every word of memory is 0
(R242); every value is the spec's. The model's own fields: nothing pending from the host, STACK_DEPTH unbounded. -/
def State.reset : State :=
  { regs := Vector.replicate 8 0
    pc := Config.resetPc
    mem := []
    stack := []
    status := Status.reset
    output := []
    input := []
    breakEn := false
    breakAddr := 0
    force := false
    pending := []
    cfg := Config.unbounded }

end Sys2Proof.Machine
end

