-- ==== Sys2Proof/Machine/Ops.lean ====
section
/-! DEFINITION. The primitives of 00_scope.md R9 and R10 over registers, memory, call stack, ports and pc; the one
operation that takes a fault (60_exceptions.md R203); entering PAUSED and HALTED; and loading an image
(70_reset_and_hazards.md R242). There is no return from a fault (R206): only the host's RESET leaves FAULTED, and that
command stands in Machine/HostCommand.lean. -/

namespace Sys2Proof.Machine

/-! ### Memory (20_memory.md R50 to R57) -/

/-- The byte stored at a byte address of the storage. -/
def readByte : Memory → Nat → Byte
  | [], _ => unlistedByte
  | (k, b) :: rest, a => if k = a then b else readByte rest a

/-- Put an entry in its place. -/
def insertByte : Memory → Nat → Byte → Memory
  | [], a, v => [(a, v)]
  | (k, b) :: rest, a, v =>
    if a < k then (a, v) :: (k, b) :: rest
    else if a = k then (a, v) :: rest
    else (k, b) :: insertByte rest a v

/-- Remove an entry. -/
def eraseByte (m : Memory) (a : Nat) : Memory := m.filter (fun c => c.1 ≠ a)

/-- Store a byte, keeping the canonical form: what an unlisted address reads as is not listed. -/
def writeByte (m : Memory) (a : Nat) (v : Byte) : Memory :=
  if v = unlistedByte then eraseByte m a else insertByte m a v

/-- `MemRead(a, 1)` (R9, R52): the word at word address a, its low byte first in the storage (R53). -/
def readWord (m : Memory) (a : Nat) : Word := wordOfBytes (readByte m (2 * a)) (readByte m (2 * a + 1))

/-- `MemWrite(a, 1, v)` (R9, R52). -/
def writeWord (m : Memory) (a : Nat) (v : Word) : Memory :=
  writeByte (writeByte m (2 * a) (lowByte v)) (2 * a + 1) (highByte v)

/-- The bytes of an image stored verbatim from byte address k on (R242), the bytes equal to the zero fill unlisted. -/
def loadBytes : Nat → List Byte → Memory
  | _, [] => []
  | k, b :: rest => if b = unlistedByte then loadBytes (k + 1) rest else (k, b) :: loadBytes (k + 1) rest

/-- The memory of an image: its words from address 0 on and zeros after them (R242). -/
def loadImage (image : List Byte) : Memory := loadBytes 0 image

/-! ### Registers, pc and memory of a state (R9) -/

/-- `x[i]`. -/
def readReg (s : State) (i : Fin 8) : Word := s.regs[i]

/-- `x[i] <- v`. -/
def writeReg (i : Fin 8) (v : Word) (s : State) : State := { s with regs := s.regs.set i v }

/-- `MemWrite(a, 1, v)` on the state's memory. -/
def writeMem (a : Nat) (v : Word) (s : State) : State := { s with mem := writeWord s.mem a v }

/-- `pc <- t`. -/
def setPc (t : Word) (s : State) : State := { s with pc := t }

/-- `nextpc = pc + 1 + n` for an instruction of n operands (40_step_and_operands.md R96). -/
def nextPc (n : Nat) (s : State) : Word := s.pc + 1 + BitVec.ofNat 16 n

/-- `pc <- nextpc` (R25, R95). -/
def advance (n : Nat) (s : State) : State := setPc (nextPc n s) s

/-! ### Call stack (R29, R9) -/

/-- `StackFull()`: it holds STACK_DEPTH entries; never, when STACK_DEPTH is unbounded. -/
def stackFull (s : State) : Bool :=
  match s.cfg.stackDepth with
  | none => false
  | some n => decide (n ≤ s.stack.length)

/-- `StackPush(v)`. -/
def stackPush (v : Word) (s : State) : State := { s with stack := v :: s.stack }

/-- The stack without its top entry: the rest of `StackPop()`. -/
def setStack (rest : List Word) (s : State) : State := { s with stack := rest }

/-! ### Ports (44_io.md R180, R183) -/

/-- `Emit(c)`: the port always accepts. -/
def emit (c : Byte) (s : State) : State := { s with output := s.output ++ [c] }

/-- The input queue without its head: the rest of `InputTake()`. -/
def setInput (rest : List Word) (s : State) : State := { s with input := rest }

/-! ### Run state (10_state.md R31) -/

/-- `halt_machine()` (R10): STATE <- HALTED. -/
def haltMachine (s : State) : State := { s with status := { s.status with state := .halted } }

/-- `pause(cause)` (R10, R31, R32): STATE <- PAUSED with the cause; nothing else changes. -/
def pause (cause : PauseCause) (s : State) : State :=
  { s with status := { s.status with state := .paused, pauseCause := cause } }

/-- Taking a fault, `raise E(v)` (60_exceptions.md R203): STATE <- FAULTED, FAULT_CODE, FAULT_VALUE and FAULT_PC are
written, pc keeps the faulting instruction's address, and nothing else changes. -/
def takeFault (e : Raised) (s : State) : State :=
  { s with status :=
      { s.status with state := .faulted, faultCode := e.code, faultValue := e.value, faultPc := s.pc } }

/-- Go on with the value of a check, or take the fault that it raises: every raise ends the step at once with none of its
writes (R10, R203), since the state given here is the one the step began in. -/
def orRaise {α : Type} (s : State) (x : Except Raised α) (k : α → Result) : Result :=
  match x with
  | .ok v => k v
  | .error e => .next (takeFault e s)

end Sys2Proof.Machine
end

