-- ==== Sys2Proof/Machine/Operands.lean ====
section
/-! DEFINITION. The addressing resolver (40_step_and_operands.md R100 to R104): value resolution of V and A operands,
location classification of D operands, the memory index of rmem and wmem (41_data_movement.md R127), and writing a
classified location. -/

namespace Sys2Proof.Machine

/-- A location a destination names (R101). -/
inductive Loc where
  /-- `Reg(i)`. -/
  | reg (i : Fin 8)
  /-- `Mem(a)`: memory word a. -/
  | mem (a : Nat)
  deriving DecidableEq, Repr

/-- InvalidAddress with a fault value (R200, R201). -/
def invalidAddress (v : Word) : Raised := ⟨.invalidAddress, v⟩

/-- `resolve(w)` (R100): a literal is itself, a register token the register's content, which is not resolved again; an
invalid word raises InvalidAddress(w). -/
def resolve (s : State) : Operand → Except Raised Word
  | .literal v => .ok (v.setWidth 16)
  | .register i => .ok (readReg s i)
  | .invalid w => .error (invalidAddress w)

/-- `dest(w)` (R101): a literal names the memory word, a register token the register, neither of which is read; an
invalid word raises InvalidAddress(w). -/
def dest : Operand → Except Raised Loc
  | .literal v => .ok (.mem v.toNat)
  | .register i => .ok (.reg i)
  | .invalid w => .error (invalidAddress w)

/-- The value of an operand used as a memory index by rmem and wmem (R125, R127): from 32768 on it raises InvalidAddress
with that value, and is never redirected to a register, wrapped or truncated. -/
def memIndex (v : Word) : Except Raised Nat :=
  if v.toNat < Config.memWords then .ok v.toNat else .error (invalidAddress v)

/-- `WriteLoc(l, v)` (R102): the word is stored unchanged. -/
def writeLoc : Loc → Word → State → State
  | .reg i, v, s => writeReg i v s
  | .mem a, v, s => writeMem a v s

end Sys2Proof.Machine
end

