-- ==== Sys2Proof/Machine/Flags.lean ====
section
/-! DEFINITION. The block has no status flags and no condition codes (10_state.md R28): nothing is computed beside a
result, and add and mult raise "no overflow signal". What stands in a flag's place: the word a comparison writes and the
test a conditional jump makes. -/

namespace Sys2Proof.Machine

/-- The word that eq and gt write (R28, R141, R142): 1 or 0. -/
def boolWord (b : Bool) : Word := if b then 1 else 0

/-- The test of jt and jf (R28, R162, R163): every non-zero 16-bit value is true, only 0 is false. -/
def isNonzero (v : Word) : Bool := decide (v ≠ 0)

end Sys2Proof.Machine
end

