-- ==== Sys2Proof/Machine/Alu.lean ====
section
/-! DEFINITION. The ALU (40_step_and_operands.md R106, 42_alu.md R140 to R148) and its eight instructions. Inputs are
whole 16-bit words, everything is unsigned, and a result is computed exactly and then reduced as its rule says. -/

namespace Sys2Proof.Machine

/-- EQ on the full 16-bit values (R141). -/
def aluEq (v1 v2 : Word) : Word := boolWord (decide (v1 = v2))

/-- GT, strict and unsigned on 16 bits (R142). -/
def aluGt (v1 v2 : Word) : Word := boolWord (decide (v1.toNat > v2.toNat))

/-- ADD: the exact sum reduced modulo 32768 (R143). -/
def aluAdd (v1 v2 : Word) : Word := BitVec.ofNat 16 ((v1.toNat + v2.toNat) % Config.arithMod)

/-- MUL: the exact product, up to 32 bits, reduced modulo 32768 (R144). -/
def aluMult (v1 v2 : Word) : Word := BitVec.ofNat 16 ((v1.toNat * v2.toNat) % Config.arithMod)

/-- MOD: DivideByZero(0) for the divisor 0, else the natural remainder, not reduced modulo 32768 (R145). -/
def aluMod (v1 v2 : Word) : Except Raised Word :=
  if v2 = 0 then .error ⟨.divideByZero, 0⟩ else .ok (BitVec.ofNat 16 (v1.toNat % v2.toNat))

/-- AND on 16 bits (R146). -/
def aluAnd (v1 v2 : Word) : Word := v1 &&& v2

/-- OR on 16 bits (R147). -/
def aluOr (v1 v2 : Word) : Word := v1 ||| v2

/-- NOT on the low 15 bits; bit 15 of the result is 0 (R148). -/
def aluNot (v : Word) : Word := ~~~v &&& Config.notMask

/-- The common shape of the F3 instructions of 42_alu.md: a is classified, then b and c resolved, left to right (R94);
then the operation's own check; then the result is written to a's location and pc advances past four words. -/
def binaryAlu (op : Word → Word → Except Raised Word) (a b c : Operand) (s : State) : Result :=
  orRaise s (dest a) fun d =>
  orRaise s (resolve s b) fun v1 =>
  orRaise s (resolve s c) fun v2 =>
  orRaise s (op v1 v2) fun v =>
  .next (advance 3 (writeLoc d v s))

/-- eq (R141). -/
def execEq (a b c : Operand) (s : State) : Result := binaryAlu (fun v1 v2 => .ok (aluEq v1 v2)) a b c s

/-- gt (R142). -/
def execGt (a b c : Operand) (s : State) : Result := binaryAlu (fun v1 v2 => .ok (aluGt v1 v2)) a b c s

/-- add (R143). -/
def execAdd (a b c : Operand) (s : State) : Result := binaryAlu (fun v1 v2 => .ok (aluAdd v1 v2)) a b c s

/-- mult (R144). -/
def execMult (a b c : Operand) (s : State) : Result := binaryAlu (fun v1 v2 => .ok (aluMult v1 v2)) a b c s

/-- mod (R145). -/
def execMod (a b c : Operand) (s : State) : Result := binaryAlu aluMod a b c s

/-- and (R146). -/
def execAnd (a b c : Operand) (s : State) : Result := binaryAlu (fun v1 v2 => .ok (aluAnd v1 v2)) a b c s

/-- or (R147). -/
def execOr (a b c : Operand) (s : State) : Result := binaryAlu (fun v1 v2 => .ok (aluOr v1 v2)) a b c s

/-- not (R148): format F2, three words. -/
def execNot (a b : Operand) (s : State) : Result :=
  orRaise s (dest a) fun d =>
  orRaise s (resolve s b) fun v =>
  .next (advance 2 (writeLoc d (aluNot v) s))

end Sys2Proof.Machine
end

