-- ==== Sys2Proof/Machine/CharIo.lean ====
section
/-! DEFINITION. out and in (44_io.md R180 to R185), input discipline (b). -/

namespace Sys2Proof.Machine

/-- out (R181): the low 8 bits of the value are sent. -/
def execOut (a : Operand) (s : State) : Result :=
  orRaise s (resolve s a) fun v =>
  .next (advance 1 (emit (lowByte v) s))

/-- in (R184): with no input the step pauses with cause INPUT and nothing else changes, so that the same in executes
again after a resume (R185); otherwise the head of the queue is stored unchanged. -/
def execIn (a : Operand) (s : State) : Result :=
  orRaise s (dest a) fun d =>
  match s.input with
  | [] => .next (pause .input s)
  | v :: rest => .next (advance 1 (writeLoc d v (setInput rest s)))

end Sys2Proof.Machine
end

