-- ==== Sys2Proof/Machine/ControlFlow.lean ====
section
/-! DEFINITION. halt, jmp, jt, jf, call, ret, noop (43_control_flow.md R160 to R168). A target is a whole word written
to pc unchecked (R167); the next fetch checks it. Every operand is resolved whether or not a branch is taken. -/

namespace Sys2Proof.Machine

/-- halt (R160): pc <- nextpc, then STATE <- HALTED. -/
def execHalt (s : State) : Result := .next (haltMachine (advance 0 s))

/-- jmp (R161). -/
def execJmp (a : Operand) (s : State) : Result :=
  orRaise s (resolve s a) fun t =>
  .next (setPc t s)

/-- jt (R162): jump if the first value is not 0. -/
def execJt (a b : Operand) (s : State) : Result :=
  orRaise s (resolve s a) fun v =>
  orRaise s (resolve s b) fun t =>
  if isNonzero v then .next (setPc t s) else .next (advance 2 s)

/-- jf (R163): jump if the first value is 0. -/
def execJf (a b : Operand) (s : State) : Result :=
  orRaise s (resolve s a) fun v =>
  orRaise s (resolve s b) fun t =>
  if isNonzero v then .next (advance 2 s) else .next (setPc t s)

/-- call (R164): push the address of the word after the call, then jump; StackOverflow(nextpc) on a full stack. -/
def execCall (a : Operand) (s : State) : Result :=
  orRaise s (resolve s a) fun t =>
  if stackFull s then .next (takeFault ⟨.stackOverflow, nextPc 1 s⟩ s)
  else .next (setPc t (stackPush (nextPc 1 s) s))

/-- ret (R165; 90_conflicts.md C2, C8): on an empty stack pc <- nextpc and STATE <- HALTED; otherwise pop into pc. -/
def execRet (s : State) : Result :=
  match s.stack with
  | [] => .next (haltMachine (advance 0 s))
  | t :: rest => .next (setPc t (setStack rest s))

/-- noop (R166). -/
def execNoop (s : State) : Result := .next (advance 0 s)

end Sys2Proof.Machine
end

