-- ==== Sys2Proof/Machine/DataMovement.lean ====
section
/-! DEFINITION. set, push, pop, rmem, wmem (41_data_movement.md R120 to R128). Operands are classified left to right
before the instruction's own check and before any write (40_step_and_operands.md R94). -/

namespace Sys2Proof.Machine

/-- set (R121): D := V. -/
def execSet (a b : Operand) (s : State) : Result :=
  orRaise s (dest a) fun d =>
  orRaise s (resolve s b) fun v =>
  .next (advance 2 (writeLoc d v s))

/-- push (R122): StackOverflow(v) on a full stack. -/
def execPush (a : Operand) (s : State) : Result :=
  orRaise s (resolve s a) fun v =>
  if stackFull s then .next (takeFault ⟨.stackOverflow, v⟩ s)
  else .next (advance 1 (stackPush v s))

/-- pop (R123): the D operand is checked before the stack; StackUnderflow(0) on an empty stack. -/
def execPop (a : Operand) (s : State) : Result :=
  orRaise s (dest a) fun d =>
  match s.stack with
  | [] => .next (takeFault ⟨.stackUnderflow, 0⟩ s)
  | v :: rest => .next (advance 1 (writeLoc d v (setStack rest s)))

/-- rmem (R126): b is resolved once and is then a memory index (R125, R127). -/
def execRmem (a b : Operand) (s : State) : Result :=
  orRaise s (dest a) fun d =>
  orRaise s (resolve s b) fun v =>
  orRaise s (memIndex v) fun addr =>
  .next (advance 2 (writeLoc d (readWord s.mem addr) s))

/-- wmem (R128): both operands are resolved; the first one's value is the memory address written, never a register. -/
def execWmem (a b : Operand) (s : State) : Result :=
  orRaise s (resolve s a) fun va =>
  orRaise s (resolve s b) fun v =>
  orRaise s (memIndex va) fun addr =>
  .next (advance 2 (writeMem addr v s))

end Sys2Proof.Machine
end

