-- ==== Sys2Proof/Machine/Fetch.lean ====
section
/-! DEFINITION. Fetch and decode (40_step_and_operands.md R91 to R93), and the words of an instruction placed where the
next fetch reads them. -/

namespace Sys2Proof.Machine

/-- The words of memory from word address p on, below the word address stop, at most four (R6 MAX_INSN_WORDS): memory
does not wrap (R93). -/
def wordsFrom (m : Memory) (stop p : Nat) : List Word :=
  ([p, p + 1, p + 2, p + 3].takeWhile (fun a => decide (a < stop))).map (readWord m)

/-- What a failed decoding raises (R92, R93, R201): IllegalOpcode with the opcode word, or InvalidAddress with the
address pc + k of the first word that is not in memory. -/
def DecodeError.raised (pc : Word) : DecodeError → Raised
  | .illegalOpcode op => ⟨.illegalOpcode, op⟩
  | .missingWord k => invalidAddress (pc + BitVec.ofNat 16 k)

/-- Fetch and decode the instruction at pc: pc from 32768 on raises InvalidAddress(pc) (R91); then the opcode word is
decoded (R92) and the operand words are read in order, the first one beyond address 32767 raising InvalidAddress(pc + k)
(R93). -/
def fetch (s : State) : Except Raised Instr :=
  if s.pc.toNat < Config.memWords then
    match decodeWords (wordsFrom s.mem Config.memWords s.pc.toNat) with
    | .ok (i, _) => .ok i
    | .error e => .error (DecodeError.raised s.pc e)
  else .error (invalidAddress s.pc)

/-- Words stored one after another from word address a on. -/
def storeWords (m : Memory) (a : Nat) : List Word → Memory
  | [] => m
  | w :: rest => storeWords (writeWord m a w) (a + 1) rest

/-- Where four words fit at or after pc without leaving memory: pc itself, or address 0 for a pc too near the end. -/
def fetchBase (s : State) : Word := if s.pc.toNat + 4 ≤ Config.memWords then s.pc else 0

end Sys2Proof.Machine
end

