-- ==== Sys2Proof/Machine/Block.lean ====
section
/-! DEFINITION. One step of the block (40_step_and_operands.md R90 to R95) and the breakpoint check before it
(60_exceptions.md R224, R225). -/

namespace Sys2Proof.Machine

/-- The instruction at pc: fetch and decode it, then execute it (R90). What the fetch raises is taken as a fault. -/
def executeAtPc (s : State) : Result := orRaise s (fetch s) fun i => exec i s

/-- FORCE <- 0 when the step ends, whatever its outcome (R224, R225). -/
def clearForce : Result → Result
  | .next t => .next { t with force := false }
  | .fault r => .fault r
  | .refused r => .refused r

/-- `FORCE == 0 and BREAK_EN == 1 and pc == BREAK_ADDR` (R225). -/
def breakpointHit (s : State) : Bool := !s.force && s.breakEn && decide (s.pc = s.breakAddr)

/-- The block's own turn: in RUNNING the breakpoint check, then one step (R90, R225); in the other states no step is
enabled (R31, R90). -/
def blockStep (s : State) : Result :=
  match s.status.state with
  | .running =>
    if breakpointHit s then .next (pause .breakpoint s) else clearForce (executeAtPc s)
  | .paused => .fault .paused
  | .halted => .fault .halted
  | .faulted => .fault .faulted

end Sys2Proof.Machine
end

