-- ==== Sys2Proof/Machine/HostCommand.lean ====
section
/-! DEFINITION. The host side of the block (60_exceptions.md R220 to R230): its commands, reset with an image
(70_reset_and_hazards.md R240 to R243), the snapshot, what the debugger's input lines enqueue, and when the host's next
command is due. -/

namespace Sys2Proof.Machine

/-! ### Reset (R240 to R243) -/

/-- FAULT_VALUE of a malformed image (R201, R243): 1 for an odd byte count, 2 for more than 32768 words. -/
def malformedValue (image : List Byte) : Option Word :=
  if image.length % 2 = 1 then
    if Config.memBytes < image.length then some (if Config.oddReportedFirst image then 1 else 2) else some 1
  else if Config.memBytes < image.length then some 2
  else none

/-- The status record of a block reset with a malformed image (R243): reset, then FAULTED; leaving PAUSED clears
PAUSE_CAUSE (R32; log entry 4). -/
def malformedStatus (v : Word) : Status :=
  { state := .faulted, pauseCause := .none, faultCode := .malformedImage, faultValue := v, faultPc := 0 }

/-- RESET(image) (R240): every piece of the spec's state at the value of R35, memory from the image (R242); a malformed
image leaves memory zero and the block FAULTED (R243). The host's further commands and the parameter STACK_DEPTH are not
state of the block and stay. -/
def resetBlock (image : List Byte) (s : State) : State :=
  match malformedValue image with
  | none => { State.reset with mem := loadImage image, pending := s.pending, cfg := s.cfg }
  | some v => { State.reset with status := malformedStatus v, pending := s.pending, cfg := s.cfg }

/-! ### Commands (R220 to R229) -/

/-- What RUN does in PAUSED (R222): PAUSE_CAUSE <- NONE, FORCE <- 1, STATE <- RUNNING. -/
def startRun (s : State) : State :=
  { s with status := { s.status with state := .running, pauseCause := .none }, force := true }

/-- After the one step of STEP, if STATE is still RUNNING, STATE <- PAUSED and PAUSE_CAUSE <- HOST (R223). -/
def pauseIfRunning (t : State) : State :=
  match t.status.state with
  | .running => pause .host t
  | _ => t

/-- What STEP does in PAUSED (R223): as RUN, then exactly one forced step, then a pause. -/
def singleStep (s : State) : Result :=
  match blockStep (startRun s) with
  | .next t => .next (pauseIfRunning t)
  | .fault r => .fault r
  | .refused r => .refused r

/-- A command of the host, given between steps (R220). RUN and STEP do nothing where R222 and R223 say so; STEP in RUNNING
and STOP outside RUNNING are not said (log entry 5). -/
def hostCommand (c : HostCmd) (s : State) : Result :=
  match c with
  | .reset image => .next (resetBlock image s)
  | .run =>
    match s.status.state with
    | .paused => .next (startRun s)
    | .running => .next s
    | .halted => .next s
    | .faulted => .next s
  | .step =>
    match s.status.state with
    | .paused => singleStep s
    | .running => .refused (.hostCommandUnsaid .step)
    | .halted => .next s
    | .faulted => .next s
  | .stop =>
    match s.status.state with
    | .running => .next (pause .host s)
    | .paused => .refused (.hostCommandUnsaid .stop)
    | .halted => .refused (.hostCommandUnsaid .stop)
    | .faulted => .refused (.hostCommandUnsaid .stop)
  | .breakAt a => .next { s with breakEn := true, breakAddr := a }
  | .setReg r v => .next (writeReg r v s)
  | .setPc a => .next (setPc a s)
  | .enqueue ws => .next (setInput (s.input ++ ws) s)
  | .snapshot => .next s
  | .exit => .next { s with pending := [] }

/-! ### When a command is due (R220, log entry 3) -/

/-- The host's next command, if it is due now, and the state without it: commands are given between steps, in order, the
first at once when the block is not running, else when the steps it waits for are done. -/
def dueCommand (s : State) : Option (HostCmd × State) :=
  match s.pending with
  | [] => none
  | h :: rest =>
    if h.after = 0 ∨ s.status.state ≠ .running then some (h.cmd, { s with pending := rest }) else none

/-- One step of a running block passes for the host's next command. -/
def tick (s : State) : State :=
  match s.pending with
  | [] => s
  | h :: rest => { s with pending := { h with after := h.after - 1 } :: rest }

/-! ### The debugger's input (R229, general knowledge G1, G2) -/

/-- The words of a file: one word per byte. -/
def fileWords (bytes : List Byte) : List Word := bytes.map (fun b => b.setWidth 16)

/-- The words of a text line: one word per character, then a newline. -/
def lineWords (chars : List Byte) : List Word := fileWords chars ++ [Config.newline]

/-- The debugger's `read <path>`: ENQUEUE followed by RUN (R220). -/
def debuggerRead (bytes : List Byte) : List HostCmd := [.enqueue (fileWords bytes), .run]

/-- The debugger's literal-text line: ENQUEUE followed by RUN (R220). -/
def debuggerLine (chars : List Byte) : List HostCmd := [.enqueue (lineWords chars), .run]

/-! ### The host's view (R226, R230) -/

/-- The termination flag (R226): STATE is HALTED or FAULTED, which is also when a run has ended (R230). -/
def terminated (s : State) : Bool :=
  match s.status.state with
  | .running => false
  | .paused => false
  | .halted => true
  | .faulted => true

/-- A run ended normally exactly when STATE is HALTED (R230). -/
def endedNormally (s : State) : Bool := decide (s.status.state = .halted)

/-- What SNAPSHOT shows (R226). -/
structure Snapshot where
  terminated : Bool
  status : Status
  pc : Word
  regs : Vector Word 8
  stackTop : List Word
  window : List (Nat × Word)
  deriving DecidableEq, Repr

/-- The word addresses of memory from pc - radius to pc + radius, cut off at both ends of memory. R226 says "a window of
memory around the cursor"; that it reaches equally far on both sides and is cut off is the model's choice (log entry 15). -/
def windowAddresses (radius : Nat) (pc : Word) : List Nat :=
  (List.range' (pc.toNat - radius) (pc.toNat + radius + 1 - (pc.toNat - radius))).filter
    (fun a => decide (a < Config.memWords))

/-- SNAPSHOT (R226): the top `slice` stack entries, top first, and the memory words within `radius` of pc; the sizes are
the host's (93_implementation_defined.md I11), the shape of the window is the model's choice (log entry 15). -/
def snapshot (slice radius : Nat) (s : State) : Snapshot :=
  { terminated := terminated s
    status := s.status
    pc := s.pc
    regs := s.regs
    stackTop := s.stack.take slice
    window := (windowAddresses radius s.pc).map (fun a => (a, readWord s.mem a)) }

/-- What a run produces (R230). -/
structure RunProduct where
  output : List Byte
  regs : Vector Word 8
  mem : Memory
  stack : List Word
  pc : Word
  status : Status
  deriving DecidableEq, Repr

/-- The product of a run that has ended; a run that has not ended has none (R230). -/
def runProduct (s : State) : Option RunProduct :=
  if terminated s then some ⟨s.output, s.regs, s.mem, s.stack, s.pc, s.status⟩ else none

end Sys2Proof.Machine
end

