-- ==== Sys2Proof/Machine/Step.lean ====
section
/-! DEFINITION. One step of the machine: the host's next command where one is due, else the block's own step
(60_exceptions.md R220, R225; 40_step_and_operands.md R90). -/

namespace Sys2Proof

/-- One step of the machine. -/
def Machine.step (s : Machine.State) : Host.Outcome Machine.State Machine.Fault Machine.Refusal :=
  match Machine.dueCommand s with
  | some (c, s') => Machine.hostCommand c s'
  | none => Machine.blockStep (Machine.tick s)

/-- The state s with the instruction whose bits are w stored where the next fetch reads it, in a block that the host has
just set RUNNING by RUN (R222), with no host command pending, so that the very next step is that instruction's
(log entry 8). -/
def Machine.State.withFetchWord (s : Machine.State) (nbits w : Nat) : Machine.State :=
  Machine.startRun
    { s with
      pc := Machine.fetchBase s
      mem := Machine.storeWords s.mem (Machine.fetchBase s).toNat (tableWords nbits w)
      pending := [] }

end Sys2Proof
end

