-- ==== Sys2Proof/Machine/Disassembler.lean ====
section
/-! DEFINITION. The disassembly walk (30_encoding.md R83 to R85), a tool beside the block (00_scope.md R5): it reads the
opcode table and memory and holds no execution state. Nothing of the machine depends on this file. -/

namespace Sys2Proof.Machine

/-- One line of the listing (R85): the address, the mnemonic, and the operands, registers tagged (R83). Column widths are
the tool's (I12). -/
structure Line where
  address : Nat
  mnemonic : String
  operands : List Operand
  deriving DecidableEq, Repr

/-- The instruction at word address p of a buffer of `stop` words, with its operands as far as they are in the buffer;
none where the word is no opcode. An instruction cut off by the end shows the operands that are there (log entry 7). -/
def lineAt (m : Memory) (stop p : Nat) : Option (Line × Nat) :=
  match decodeWords (wordsFrom m stop p ++ [0, 0, 0]) with
  | .ok (i, _) => some (⟨p, i.mnemonic, i.operands.take ((wordsFrom m stop p).length - 1)⟩, i.length)
  | .error _ => none

/-- The walk from p on (R84): a line for each instruction, nothing for a word that is no opcode. -/
def disassembleFrom (m : Memory) (stop : Nat) : Nat → Nat → List Line
  | 0, _ => []
  | fuel + 1, p =>
    if p < stop then
      match lineAt m stop p with
      | some (line, len) => line :: disassembleFrom m stop fuel (p + len)
      | none => disassembleFrom m stop fuel (p + 1)
    else []

/-- The walk over the whole bank (R84); each turn moves p by at least one, so the fuel does not run out. -/
def disassemble (m : Memory) : List Line := disassembleFrom m Config.memWords Config.memWords 0

end Sys2Proof.Machine
end

