-- ==== Sys2Proof/Machine/MemoryPort.lean ====
section
/-! DEFINITION. The memory port of a block that keeps its memory array outside itself (20_memory.md R52): the
transactions of one step, in order. Nothing of the machine depends on this file; it is a second view of the same step. -/

namespace Sys2Proof.Machine

/-- The two transactions of the port (R52). -/
inductive MemAccess where
  /-- `MemRead(a, 1)`. -/
  | read (a : Nat)
  /-- `MemWrite(a, 1, v)`. -/
  | write (a : Nat) (v : Word)
  deriving DecidableEq, Repr

/-- The operand count of an opcode word, read from the word alone (R79); an illegal opcode has none. -/
def operandCount (op : Word) : Option Nat :=
  match decodeWords [op, 0, 0, 0] with
  | .ok (i, _) => some i.operands.length
  | .error _ => none

/-- The reads of instruction words (R91, R93): the opcode word, then the operand words as far as they are in memory. -/
def fetchReads (s : State) : List MemAccess :=
  if s.pc.toNat < Config.memWords then
    let n := (operandCount (readWord s.mem s.pc.toNat)).getD 0
    ((List.range' s.pc.toNat (1 + n)).takeWhile (fun a => decide (a < Config.memWords))).map .read
  else []

/-- The destination operand of an instruction: its operand of role D (R73). -/
def dstOperand (i : Instr) : Option Operand :=
  match i.roles, i.operands with
  | .D :: _, a :: _ => some a
  | _, _ => none

/-- The data read of an instruction: rmem's memory word (R126). -/
def dataReads (i : Instr) (s : State) : List MemAccess :=
  match i with
  | .rmem _ b =>
    match resolve s b with
    | .ok v => [.read v.toNat]
    | .error _ => []
  | _ => []

/-- The write of an instruction that ended in t: wmem's memory word (R128), or a D operand in memory range (R120). -/
def dataWrites (i : Instr) (s t : State) : List MemAccess :=
  match i with
  | .wmem a _ =>
    match resolve s a with
    | .ok v => [.write v.toNat (readWord t.mem v.toNat)]
    | .error _ => []
  | _ =>
    match dstOperand i with
    | some (.literal v) => [.write v.toNat (readWord t.mem v.toNat)]
    | _ => []

/-- The step committed: it neither raised nor paused (R95). -/
def committed (t : State) : Bool := decide (t.status.state ≠ .faulted ∧ t.status.state ≠ .paused)

/-- The data transactions of an executed instruction: none when it raises or pauses (R10, R52). -/
def dataAccesses (i : Instr) (s : State) : List MemAccess :=
  match exec i s with
  | .next t => if committed t then dataReads i s ++ dataWrites i s t else []
  | .fault _ => []
  | .refused _ => []

/-- The transactions of the step that executes the instruction at pc, in the order of R52: 1 to 4 instruction-word reads,
at most one data read, at most one write. -/
def stepAccesses (s : State) : List MemAccess :=
  match fetch s with
  | .ok i => fetchReads s ++ dataAccesses i s
  | .error _ => fetchReads s

/-- What a transaction does to the memory array behind the port. -/
def MemAccess.apply (m : Memory) : MemAccess → Memory
  | .read _ => m
  | .write a v => writeWord m a v

/-- The word address a transaction names. -/
def MemAccess.address : MemAccess → Nat
  | .read a => a
  | .write a _ => a

end Sys2Proof.Machine
end

