-- ==== Sys2Proof/Safety.lean ====
section
/-! DEFINITION. What counts as a safe state and a safe run, in the terms the statements use. -/

namespace Sys2Proof.Machine

/-- The stack holds at most STACK_DEPTH entries (10_state.md R29). -/
abbrev State.stackWithinDepth (s : State) : Prop := ∀ n, s.cfg.stackDepth = some n → s.stack.length ≤ n

/-- The status record says one thing (R31, R32): a pause cause exactly in PAUSED, a fault code exactly in FAULTED, and no
fault value or fault pc without a fault. -/
abbrev Status.consistent (st : Status) : Prop :=
  (st.state = .paused ↔ st.pauseCause ≠ .none) ∧
  (st.state = .faulted ↔ st.faultCode ≠ .none) ∧
  (st.state ≠ .faulted → st.faultValue = 0 ∧ st.faultPc = 0)

/-- The invariant of the machine: memory is canonical and inside the storage, the status record is consistent, and the
stack is within its capacity. -/
structure State.Inv (s : State) : Prop where
  mem : Memory.wf s.mem
  status : Status.consistent s.status
  stack : s.stackWithinDepth

/-- No fault has been raised (R203). -/
abbrev State.unfaulted (s : State) : Prop := s.status.state ≠ .faulted

/-- A run of n steps in which no state is FAULTED. -/
def safeRun : Nat → State → Prop
  | 0, s => s.unfaulted
  | n + 1, s => s.unfaulted ∧ ∀ t, step s = .next t → safeRun n t

end Sys2Proof.Machine
end

