-- ==== Sys2Proof/Certificates/Slice0/Obligations.lean ====
section
/-! DEFINITION. The statements. Instruction statements have three parts: the encoding (what words decode to the
instruction), what the instruction does and leaves unchanged where its operands and state allow it, and where it faults
instead; the parts of one statement exclude each other and cover every operand form. -/

namespace Sys2Proof.Claims

open Sys2Proof.Machine

/-! ### The words the statements use -/

/-- s after a fault with that code and value (R203): only the status record differs. -/
def faultedWith (code : FaultCode) (v : Word) (s : State) : State :=
  { s with status := { state := .faulted, pauseCause := s.status.pauseCause, faultCode := code, faultValue := v,
                       faultPc := s.pc } }

/-- Every byte of memory reads as before. -/
def SameMemory (s t : State) : Prop := ∀ k, readByte t.mem k = readByte s.mem k

/-- Every byte of memory but the two of word a reads as before. -/
def SameMemoryExcept (a : Nat) (s t : State) : Prop :=
  ∀ k, k ≠ 2 * a → k ≠ 2 * a + 1 → readByte t.mem k = readByte s.mem k

/-- Every register reads as before. -/
def SameRegs (s t : State) : Prop := ∀ r, readReg t r = readReg s r

/-- The host-side state of R34 (but the input queue), and the model's own fields, what the host is going to do (log entry
3) and the parameter (log entry 2), are as before. -/
def SameHostSide (s t : State) : Prop :=
  t.breakEn = s.breakEn ∧ t.breakAddr = s.breakAddr ∧ t.force = s.force ∧ t.pending = s.pending ∧ t.cfg = s.cfg

/-- Everything but registers, memory and pc is as before. -/
def SameRest (s t : State) : Prop :=
  t.stack = s.stack ∧ t.status = s.status ∧ t.output = s.output ∧ t.input = s.input ∧ SameHostSide s t

/-- The location d holds v in t, and every other register and every other byte of memory is as in s. -/
def Written (d : Loc) (v : Word) (s t : State) : Prop :=
  match d with
  | .reg i => readReg t i = v ∧ (∀ r, r ≠ i → readReg t r = readReg s r) ∧ SameMemory s t
  | .mem a => readWord t.mem a = v ∧ SameMemoryExcept a s t ∧ SameRegs s t

/-- The leftmost invalid operand word (R94). -/
def firstInvalid : List Operand → Option Word
  | [] => none
  | .literal _ :: rest => firstInvalid rest
  | .register _ :: rest => firstInvalid rest
  | .invalid w :: _ => some w

/-- The stack holds STACK_DEPTH entries (R9). -/
def Full (s : State) : Prop := s.cfg.stackDepth = some s.stack.length

/-- The stack holds fewer than STACK_DEPTH entries, or STACK_DEPTH is unbounded (R9). -/
def NotFull (s : State) : Prop := ∀ n, s.cfg.stackDepth = some n → s.stack.length < n

/-- The block is about to execute one instruction (R90): RUNNING, the breakpoint does not hold it (R225), and the host has
nothing pending. -/
def Enabled (s : State) : Prop :=
  s.status.state = .running ∧ s.pending = [] ∧ ¬ (s.force = false ∧ s.breakEn = true ∧ s.pc = s.breakAddr)

/-- Format F0: the opcode word alone. -/
def EncodedF0 (i : Instr) (op : Word) : Prop := ∀ rest, decodeWords (op :: rest) = .ok (i, rest)

/-- Format F1: the opcode word and one operand word. -/
def EncodedF1 (mk : Operand → Instr) (op : Word) : Prop :=
  ∀ a rest, decodeWords (op :: a :: rest) = .ok (mk (.ofWord a), rest)

/-- Format F2: the opcode word and two operand words. -/
def EncodedF2 (mk : Operand → Operand → Instr) (op : Word) : Prop :=
  ∀ a b rest, decodeWords (op :: a :: b :: rest) = .ok (mk (.ofWord a) (.ofWord b), rest)

/-- Format F3: the opcode word and three operand words. -/
def EncodedF3 (mk : Operand → Operand → Operand → Instr) (op : Word) : Prop :=
  ∀ a b c rest, decodeWords (op :: a :: b :: c :: rest) = .ok (mk (.ofWord a) (.ofWord b) (.ofWord c), rest)

/-- The F3 instructions without a check of their own: they write f of the two values, taken from the state at the start of
the step, to the destination, go to the next instruction and change nothing else; the leftmost invalid operand faults. -/
def WritesOf (mk : Operand → Operand → Operand → Instr) (op : Word) (f : Word → Word → Word) : Prop :=
  EncodedF3 mk op ∧
  (∀ s a b c d v1 v2, dest a = .ok d → resolve s b = .ok v1 → resolve s c = .ok v2 →
    ∃ t, exec (mk a b c) s = .next t ∧ Written d (f v1 v2) s t ∧ t.pc = s.pc + 4 ∧ SameRest s t) ∧
  (∀ s a b c w, firstInvalid [a, b, c] = some w →
    exec (mk a b c) s = .next (faultedWith .invalidAddress w s))

/-- The rows of the opcode table (R73): opcode, mnemonic, roles. -/
def tableRows : List (Word × String × List Role) :=
  ([(0#16, "halt", []), (1#16, "set", [Role.D, Role.V]), (2#16, "push", [Role.V]), (3#16, "pop", [Role.D]),
    (4#16, "eq", [Role.D, Role.V, Role.V]), (5#16, "gt", [Role.D, Role.V, Role.V])] : List (Word × String × List Role)) ++
  ([(6#16, "jmp", [Role.V]), (7#16, "jt", [Role.V, Role.V]), (8#16, "jf", [Role.V, Role.V]),
    (9#16, "add", [Role.D, Role.V, Role.V]), (10#16, "mult", [Role.D, Role.V, Role.V]),
    (11#16, "mod", [Role.D, Role.V, Role.V])] : List (Word × String × List Role)) ++
  ([(12#16, "and", [Role.D, Role.V, Role.V]), (13#16, "or", [Role.D, Role.V, Role.V]),
    (14#16, "not", [Role.D, Role.V]), (15#16, "rmem", [Role.D, Role.A]), (16#16, "wmem", [Role.V, Role.V])] :
      List (Word × String × List Role)) ++
  ([(17#16, "call", [Role.V]), (18#16, "ret", []), (19#16, "out", [Role.V]), (20#16, "in", [Role.D]),
    (21#16, "noop", [])] : List (Word × String × List Role))

/-- The words of i stand in memory m from word address p on. -/
def StandsAt (i : Instr) (m : Memory) (p : Nat) : Prop :=
  ∀ k, k < i.length → (encode i)[k]? = some (readWord m (p + k))

/-- FORCE is cleared when the step ends (R224). -/
def endStep (t : State) : State := { t with force := false }

/-- s with another breakpoint and FORCE (R34) and another plan of the host (log entry 3). -/
def withHostSide (en : Bool) (addr : Word) (force : Bool) (plan : List HostAction) (s : State) : State :=
  { s with breakEn := en, breakAddr := addr, force := force, pending := plan }

/-- No command of the host is due in RUNNING (log entry 3): the step is the block's own. -/
def NoneDue (s : State) : Prop := ∀ c rest, s.pending ≠ ⟨0, c⟩ :: rest

/-- The instruction at pc is i, and it commits (R95): its step ends in t without a raise or a pause. -/
def Commits (s : State) (i : Instr) (t : State) : Prop :=
  fetch s = .ok i ∧ exec i s = .next t ∧ t.status.state ≠ .faulted ∧ t.status.state ≠ .paused

/-- The addresses that a step reads instruction words at, in order (R52, R91, R93): none for a pc from 32768 on, the opcode
word alone where it is illegal, else pc, pc + 1, .. pc + n as far as they are below 32768. -/
def InstructionWordsAt (s : State) (fetches : List Nat) : Prop :=
  (32768 ≤ s.pc.toNat → fetches = []) ∧
  (s.pc.toNat < 32768 → 22 ≤ (readWord s.mem s.pc.toNat).toNat → fetches = [s.pc.toNat]) ∧
  (∀ op mn roles, (op, mn, roles) ∈ tableRows → s.pc.toNat < 32768 → readWord s.mem s.pc.toNat = op →
    fetches = ((List.range (1 + roles.length)).map (fun k => s.pc.toNat + k)).filter (fun a => decide (a < 32768)))

/-- The step reads the data word at address x: it commits an rmem whose address operand resolves to x (R52, R126). -/
def ReadsDataAt (s : State) (x : Nat) : Prop :=
  ∃ a b v t, Commits s (.rmem a b) t ∧ resolve s b = .ok v ∧ x = v.toNat

/-- The step writes the word at address x: it commits a wmem whose first operand resolves to x, or an instruction with the
D operand x (R52, R120, R128). -/
def WritesWordAt (s : State) (x : Nat) : Prop :=
  ∃ i t, Commits s i t ∧
    ((∃ v : BitVec 15, dstOperand i = some (.literal v) ∧ x = v.toNat) ∨
      (∃ a b va, i = .wmem a b ∧ resolve s a = .ok va ∧ x = va.toNat))

end Sys2Proof.Claims

open Sys2Proof Sys2Proof.Machine Sys2Proof.Claims

/-! ### Encoding -/

/-- The words of every well-formed instruction, every operand at every value, decode to it and leave the words after it
(R70, R72, R73). -/
def Obligations.DecodeOfEncodeIsTheInstruction : Prop :=
  ∀ i : Instr, i.wf = true → ∀ rest, decodeWords (encode i ++ rest) = .ok (i, rest)

/-- What decodes is a well-formed instruction, and its words are the ones that were read: no bit is dropped (R70 to R72). -/
def Obligations.DecodedWordsAreTheEncoding : Prop :=
  ∀ ws i rest, decodeWords ws = .ok (i, rest) → i.wf = true ∧ ws = encode i ++ rest

/-- Each row of the opcode table with any operand words decodes to an instruction of that row's mnemonic, roles and
length, its operands the classes of the words in order (R73). -/
def Obligations.OpcodeTableRowsDecode : Prop :=
  ∀ op mn roles, (op, mn, roles) ∈ tableRows → ∀ ws : List Word, ws.length = roles.length → ∀ rest,
    ∃ i, decodeWords (op :: (ws ++ rest)) = .ok (i, rest) ∧ i.opcode = op ∧ i.mnemonic = mn ∧ i.roles = roles ∧
      i.operands = ws.map Operand.ofWord ∧ i.length = 1 + roles.length

/-- Words written out from the table and the spec's examples decode to what they stand for (R73, 95_test_vectors.md). -/
def Obligations.ExampleWordsDecode : Prop :=
  decodeWords [1, 32769, 42] = .ok (.set (.register 1) (.literal 42), []) ∧
  decodeWords [9, 32768, 32768, 1] = .ok (.add (.register 0) (.register 0) (.literal 1), []) ∧
  decodeWords [16, 32769, 65] = .ok (.wmem (.register 1) (.literal 65), []) ∧
  decodeWords [17, 10] = .ok (.call (.literal 10), []) ∧
  decodeWords [20, 32776, 5] = .ok (.inp (.invalid 32776), [5]) ∧
  decodeWords [0] = .ok (.halt, []) ∧ decodeWords [22] = .error (.illegalOpcode 22) ∧
  decodeWords [32768] = .error (.illegalOpcode 32768)

/-- The class of every operand word (R72): the value ranges, the register number as bits 2..0, and the value of a
literal as the word itself. -/
def Obligations.OperandWordsHaveOneClass : Prop :=
  (∀ w : Word, w.toNat ≤ 32767 → ∃ v, Operand.ofWord w = .literal v ∧ v.setWidth 16 = w ∧ w.getLsbD 15 = false) ∧
  (∀ w : Word, 32768 ≤ w.toNat → w.toNat ≤ 32775 → ∃ i : Fin 8, Operand.ofWord w = .register i ∧
    i.val = w.toNat - 32768 ∧ i.val = (w.extractLsb' 0 3).toNat ∧ w.extractLsb' 3 13 = 0b1000000000000#13) ∧
  (∀ w : Word, 32776 ≤ w.toNat → Operand.ofWord w = .invalid w ∧ w.getLsbD 15 = true ∧ w.extractLsb' 3 12 ≠ 0#12)

/-! ### The resolver -/

/-- Value resolution of any operand word (R100): a literal is the word itself, a register token the register's content,
which is not resolved again, an invalid word raises InvalidAddress with the word. -/
def Obligations.ResolveFollowsTheWordsClass : Prop :=
  ∀ (s : State) (w : Word),
    (w.toNat ≤ 32767 → resolve s (.ofWord w) = .ok w) ∧
    (∀ i : Fin 8, w.toNat = 32768 + i.val → resolve s (.ofWord w) = .ok (readReg s i)) ∧
    (32776 ≤ w.toNat → resolve s (.ofWord w) = .error ⟨.invalidAddress, w⟩)

/-- Location classification of any destination word (R101): memory word w, register w - 32768, or InvalidAddress(w). -/
def Obligations.DestFollowsTheWordsClass : Prop :=
  ∀ w : Word,
    (w.toNat ≤ 32767 → dest (.ofWord w) = .ok (.mem w.toNat)) ∧
    (∀ i : Fin 8, w.toNat = 32768 + i.val → dest (.ofWord w) = .ok (.reg i)) ∧
    (32776 ≤ w.toNat → dest (.ofWord w) = .error ⟨.invalidAddress, w⟩)

/-! ### The step -/

/-- A step of an enabled block at words that are those of i is exec of i at that state, with FORCE cleared after it
(R90, R225). -/
def Obligations.StepExecutesTheInstructionAtPc : Prop :=
  ∀ s i, Enabled s → i.wf = true → s.pc.toNat + i.length ≤ 32768 → StandsAt i s.mem s.pc.toNat →
    ∃ t, exec i s = .next t ∧ step s = .next (endStep t)

/-- Opcode fetch, decode and operand fetch (R91, R92, R93): a pc from 32768 on faults with the pc, an opcode word above 21
with the word, an operand word beyond memory with its address, the first one being 32768 whatever k is; otherwise the
instruction of that opcode with the classes of those operand words is executed. -/
def Obligations.StepFetchesAndDecodes : Prop :=
  ∀ s, Enabled s →
    (32768 ≤ s.pc.toNat → step s = .next (endStep (faultedWith .invalidAddress s.pc s))) ∧
    (s.pc.toNat < 32768 → 21 < (readWord s.mem s.pc.toNat).toNat →
      step s = .next (endStep (faultedWith .illegalOpcode (readWord s.mem s.pc.toNat) s))) ∧
    (∀ op mn roles, (op, mn, roles) ∈ tableRows → s.pc.toNat < 32768 → readWord s.mem s.pc.toNat = op →
      (∀ k, 1 ≤ k → k ≤ roles.length → s.pc.toNat + k = 32768 →
        step s = .next (endStep (faultedWith .invalidAddress (BitVec.ofNat 16 (s.pc.toNat + k)) s))) ∧
      (s.pc.toNat + roles.length < 32768 →
        ∃ i t, i.mnemonic = mn ∧
          i.operands = (List.range roles.length).map (fun k => Operand.ofWord (readWord s.mem (s.pc.toNat + 1 + k))) ∧
          exec i s = .next t ∧ step s = .next (endStep t)))

/-- Every opcode word 22..65535 is illegal, and only those: decoding refuses it by name, the step faults with the word,
and a disassembler passes over it as one word of data (R76). -/
def Obligations.OpcodesAbove21AreIllegal : Prop :=
  (∀ (op : Word) ws, decodeWords (op :: ws) = .error (.illegalOpcode op) ↔ 22 ≤ op.toNat) ∧
  (∀ s, Enabled s → s.pc.toNat < 32768 → 22 ≤ (readWord s.mem s.pc.toNat).toNat →
    step s = .next (endStep (faultedWith .illegalOpcode (readWord s.mem s.pc.toNat) s))) ∧
  (∀ m stop fuel p, p < stop → 22 ≤ (readWord m p).toNat →
    disassembleFrom m stop (fuel + 1) p = disassembleFrom m stop fuel (p + 1))

/-- The breakpoint check (R225): on a match no instruction executes and the block pauses with cause BREAKPOINT; otherwise
one step is executed and FORCE is cleared, whatever the step's outcome. -/
def Obligations.BreakpointIsCheckedBeforeEachStep : Prop :=
  ∀ s, s.status.state = .running → s.pending = [] →
    (s.force = false ∧ s.breakEn = true ∧ s.pc = s.breakAddr →
      step s = .next { s with status := { s.status with state := .paused, pauseCause := .breakpoint } }) ∧
    (¬ (s.force = false ∧ s.breakEn = true ∧ s.pc = s.breakAddr) →
      ∃ t, executeAtPc s = .next t ∧ step s = .next (endStep t))

/-- No step is enabled outside RUNNING (R31, R90): with nothing pending from the host there is no next state. That the
model then answers a fault named after the state is its own choice (log entry 3). -/
def Obligations.NoStepOutsideRunning : Prop :=
  ∀ s, s.pending = [] →
    (s.status.state = .paused → step s = .fault .paused) ∧
    (s.status.state = .halted → step s = .fault .halted) ∧
    (s.status.state = .faulted → step s = .fault .faulted)

/-- The model's choice (log entry 3): while the block runs, a host command that waits for n + 1 steps waits for n after
this one, which is the block's own; once it waits for none, or the block is not running, it is given at once. -/
def Obligations.PendingCommandWaitsForSteps : Prop :=
  (∀ s n c rest, s.pending = ⟨n + 1, c⟩ :: rest → s.status.state = .running →
    step s = blockStep { s with pending := ⟨n, c⟩ :: rest }) ∧
  (∀ s n c rest, s.pending = ⟨n, c⟩ :: rest → n = 0 ∨ s.status.state ≠ .running →
    step s = hostCommand c { s with pending := rest })

/-! ### Data movement -/

/-- set (R121). -/
def Obligations.SetCopiesTheValue : Prop :=
  EncodedF2 .set 1 ∧
  (∀ s a b d v, dest a = .ok d → resolve s b = .ok v →
    ∃ t, exec (.set a b) s = .next t ∧ Written d v s t ∧ t.pc = s.pc + 3 ∧ SameRest s t) ∧
  (∀ s a b w, firstInvalid [a, b] = some w → exec (.set a b) s = .next (faultedWith .invalidAddress w s))

/-- push (R122). -/
def Obligations.PushPutsTheValueOnTheStack : Prop :=
  EncodedF1 .push 2 ∧
  (∀ s a v, resolve s a = .ok v → NotFull s →
    exec (.push a) s = .next { s with stack := v :: s.stack, pc := s.pc + 2 }) ∧
  (∀ s a v, resolve s a = .ok v → Full s → exec (.push a) s = .next (faultedWith .stackOverflow v s)) ∧
  (∀ s w, exec (.push (.invalid w)) s = .next (faultedWith .invalidAddress w s))

/-- pop (R123): the operand is checked before the stack. -/
def Obligations.PopTakesTheTopOfTheStack : Prop :=
  EncodedF1 .pop 3 ∧
  (∀ s a d v rest, dest a = .ok d → s.stack = v :: rest →
    ∃ t, exec (.pop a) s = .next t ∧ Written d v s t ∧ t.pc = s.pc + 2 ∧ t.stack = rest ∧ t.status = s.status ∧
      t.output = s.output ∧ t.input = s.input ∧ SameHostSide s t) ∧
  (∀ s a d, dest a = .ok d → s.stack = [] → exec (.pop a) s = .next (faultedWith .stackUnderflow 0 s)) ∧
  (∀ s w, exec (.pop (.invalid w)) s = .next (faultedWith .invalidAddress w s))

/-- rmem (R126): the resolved value is the memory address read, never a register (R125, R127). -/
def Obligations.RmemReadsAMemoryWord : Prop :=
  EncodedF2 .rmem 15 ∧
  (∀ s a b d v, dest a = .ok d → resolve s b = .ok v → v.toNat < 32768 →
    ∃ t, exec (.rmem a b) s = .next t ∧ Written d (readWord s.mem v.toNat) s t ∧ t.pc = s.pc + 3 ∧ SameRest s t) ∧
  (∀ s a b d v, dest a = .ok d → resolve s b = .ok v → 32768 ≤ v.toNat →
    exec (.rmem a b) s = .next (faultedWith .invalidAddress v s)) ∧
  (∀ s a b w, firstInvalid [a, b] = some w → exec (.rmem a b) s = .next (faultedWith .invalidAddress w s))

/-- wmem (R128): both operands are resolved, the first one's value is the memory address written, never a register. -/
def Obligations.WmemWritesAMemoryWord : Prop :=
  EncodedF2 .wmem 16 ∧
  (∀ s a b va v, resolve s a = .ok va → resolve s b = .ok v → va.toNat < 32768 →
    ∃ t, exec (.wmem a b) s = .next t ∧ Written (.mem va.toNat) v s t ∧ t.pc = s.pc + 3 ∧ SameRest s t) ∧
  (∀ s a b va v, resolve s a = .ok va → resolve s b = .ok v → 32768 ≤ va.toNat →
    exec (.wmem a b) s = .next (faultedWith .invalidAddress va s)) ∧
  (∀ s a b w, firstInvalid [a, b] = some w → exec (.wmem a b) s = .next (faultedWith .invalidAddress w s))

/-! ### Comparison, arithmetic, logic -/

/-- eq (R141): the full 16-bit values are compared. -/
def Obligations.EqWritesOneOrZero : Prop := WritesOf .eq 4 (fun v1 v2 => if v1 = v2 then 1 else 0)

/-- gt (R142): strict and unsigned. -/
def Obligations.GtWritesOneOrZero : Prop := WritesOf .gt 5 (fun v1 v2 => if v2.toNat < v1.toNat then 1 else 0)

/-- add (R143): the exact sum modulo 32768. -/
def Obligations.AddIsTheSumModulo32768 : Prop :=
  WritesOf .add 9 (fun v1 v2 => BitVec.ofNat 16 ((v1.toNat + v2.toNat) % 32768))

/-- mult (R144): the exact product modulo 32768. -/
def Obligations.MultIsTheProductModulo32768 : Prop :=
  WritesOf .mult 10 (fun v1 v2 => BitVec.ofNat 16 ((v1.toNat * v2.toNat) % 32768))

/-- mod (R145): the natural remainder, DivideByZero(0) for the divisor 0 after the operands are classified. -/
def Obligations.ModIsTheRemainder : Prop :=
  EncodedF3 .mod 11 ∧
  (∀ s a b c d v1 v2, dest a = .ok d → resolve s b = .ok v1 → resolve s c = .ok v2 → v2 ≠ 0 →
    ∃ t, exec (.mod a b c) s = .next t ∧ Written d (BitVec.ofNat 16 (v1.toNat % v2.toNat)) s t ∧ t.pc = s.pc + 4 ∧
      SameRest s t) ∧
  (∀ s a b c d v1, dest a = .ok d → resolve s b = .ok v1 → resolve s c = .ok 0 →
    exec (.mod a b c) s = .next (faultedWith .divideByZero 0 s)) ∧
  (∀ s a b c w, firstInvalid [a, b, c] = some w → exec (.mod a b c) s = .next (faultedWith .invalidAddress w s))

/-- and (R146): on 16 bits. -/
def Obligations.AndIsBitwiseOn16Bits : Prop := WritesOf .and 12 (fun v1 v2 => v1 &&& v2)

/-- or (R147): on 16 bits. -/
def Obligations.OrIsBitwiseOn16Bits : Prop := WritesOf .or 13 (fun v1 v2 => v1 ||| v2)

/-- not (R148): the low 15 bits complemented, bit 15 of the result 0. -/
def Obligations.NotComplements15Bits : Prop :=
  EncodedF2 .not 14 ∧
  (∀ s a b d v, dest a = .ok d → resolve s b = .ok v →
    ∃ t, exec (.not a b) s = .next t ∧ Written d ((v &&& 0x7FFF) ^^^ 0x7FFF) s t ∧ t.pc = s.pc + 3 ∧ SameRest s t) ∧
  (∀ s a b w, firstInvalid [a, b] = some w → exec (.not a b) s = .next (faultedWith .invalidAddress w s))

/-- add and mult are commutative and their results below 32768 for all inputs (R140; W2 of 95_test_vectors.md). -/
def Obligations.SumsAndProductsWrapBelow32768 : Prop :=
  ∀ v1 v2 : Word, aluAdd v1 v2 = aluAdd v2 v1 ∧ aluMult v1 v2 = aluMult v2 v1 ∧
    (aluAdd v1 v2).toNat < 32768 ∧ (aluMult v1 v2).toNat < 32768 ∧ (aluNot v1).toNat < 32768

/-! ### Control transfer -/

/-- halt (R160). -/
def Obligations.HaltEndsTheRun : Prop :=
  EncodedF0 .halt 0 ∧
  ∀ s, exec .halt s = .next { s with pc := s.pc + 1, status := { s.status with state := .halted } }

/-- jmp (R161): the target is written to pc unchecked. -/
def Obligations.JmpGoesToTheValue : Prop :=
  EncodedF1 .jmp 6 ∧
  (∀ s a t, resolve s a = .ok t → exec (.jmp a) s = .next { s with pc := t }) ∧
  (∀ s w, exec (.jmp (.invalid w)) s = .next (faultedWith .invalidAddress w s))

/-- jt (R162): both operands are resolved whether or not the jump is taken. -/
def Obligations.JtJumpsIfNotZero : Prop :=
  EncodedF2 .jt 7 ∧
  (∀ s a b v t, resolve s a = .ok v → resolve s b = .ok t → v ≠ 0 → exec (.jt a b) s = .next { s with pc := t }) ∧
  (∀ s a b t, resolve s a = .ok 0 → resolve s b = .ok t → exec (.jt a b) s = .next { s with pc := s.pc + 3 }) ∧
  (∀ s a b w, firstInvalid [a, b] = some w → exec (.jt a b) s = .next (faultedWith .invalidAddress w s))

/-- jf (R163). -/
def Obligations.JfJumpsIfZero : Prop :=
  EncodedF2 .jf 8 ∧
  (∀ s a b t, resolve s a = .ok 0 → resolve s b = .ok t → exec (.jf a b) s = .next { s with pc := t }) ∧
  (∀ s a b v t, resolve s a = .ok v → resolve s b = .ok t → v ≠ 0 →
    exec (.jf a b) s = .next { s with pc := s.pc + 3 }) ∧
  (∀ s a b w, firstInvalid [a, b] = some w → exec (.jf a b) s = .next (faultedWith .invalidAddress w s))

/-- call (R164). -/
def Obligations.CallPushesTheReturnAddress : Prop :=
  EncodedF1 .call 17 ∧
  (∀ s a t, resolve s a = .ok t → NotFull s →
    exec (.call a) s = .next { s with stack := (s.pc + 2) :: s.stack, pc := t }) ∧
  (∀ s a t, resolve s a = .ok t → Full s → exec (.call a) s = .next (faultedWith .stackOverflow (s.pc + 2) s)) ∧
  (∀ s w, exec (.call (.invalid w)) s = .next (faultedWith .invalidAddress w s))

/-- ret (R165): the emptiness test comes before the pop; an empty stack halts and is no fault. -/
def Obligations.RetReturnsOrHalts : Prop :=
  EncodedF0 .ret 18 ∧
  (∀ s t rest, s.stack = t :: rest → exec .ret s = .next { s with stack := rest, pc := t }) ∧
  (∀ s, s.stack = [] →
    exec .ret s = .next { s with pc := s.pc + 1, status := { s.status with state := .halted } })

/-- noop (R166). -/
def Obligations.NoopOnlyAdvances : Prop :=
  EncodedF0 .noop 21 ∧ ∀ s, exec .noop s = .next { s with pc := s.pc + 1 }

/-! ### Character I/O -/

/-- out (R181). -/
def Obligations.OutSendsTheLowByte : Prop :=
  EncodedF1 .out 19 ∧
  (∀ s a v, resolve s a = .ok v →
    exec (.out a) s = .next { s with output := s.output ++ [BitVec.ofNat 8 (v.toNat % 256)], pc := s.pc + 2 }) ∧
  (∀ s w, exec (.out (.invalid w)) s = .next (faultedWith .invalidAddress w s))

/-- in (R184): the operand is checked before the input test; with no input the step pauses and changes nothing else. -/
def Obligations.InTakesOneWordOrPauses : Prop :=
  EncodedF1 .inp 20 ∧
  (∀ s a d v rest, dest a = .ok d → s.input = v :: rest →
    ∃ t, exec (.inp a) s = .next t ∧ Written d v s t ∧ t.pc = s.pc + 2 ∧ t.input = rest ∧ t.stack = s.stack ∧
      t.status = s.status ∧ t.output = s.output ∧ SameHostSide s t) ∧
  (∀ s a d, dest a = .ok d → s.input = [] →
    exec (.inp a) s = .next { s with status := { s.status with state := .paused, pauseCause := .input } }) ∧
  (∀ s w, exec (.inp (.invalid w)) s = .next (faultedWith .invalidAddress w s))

/-! ### Rules over all instructions -/

/-- Raising a fault (R203): STATE, FAULT_CODE, FAULT_VALUE and FAULT_PC are written, FAULT_PC is the pc, the pc stays, and
nothing of the faulting step is committed (FORCE, a host-side bit, is cleared as R224 says). -/
def Obligations.FaultsChangeOnlyTheStatusRecord : Prop :=
  ∀ s t, s.status.state = .running → s.pending = [] → step s = .next t → t.status.state = .faulted →
    ∃ code v, code ≠ .none ∧ t = endStep (faultedWith code v s)

/-- Which faults each instruction can raise beyond its fetch (R202), with the fault values of R201. -/
def Obligations.FaultsPerInstruction : Prop :=
  ∀ i s t, s.status.state ≠ .faulted → exec i s = .next t → t.status.state = .faulted →
    (t.status.faultCode = .invalidAddress ∧ Operand.invalid t.status.faultValue ∈ i.operands) ∨
    (t.status.faultCode = .invalidAddress ∧ 32768 ≤ t.status.faultValue.toNat ∧
      ∃ a b, (i = .rmem a b ∧ resolve s b = .ok t.status.faultValue) ∨
        (i = .wmem a b ∧ resolve s a = .ok t.status.faultValue)) ∨
    (t.status.faultCode = .stackUnderflow ∧ t.status.faultValue = 0 ∧ ∃ a, i = .pop a) ∨
    (t.status.faultCode = .divideByZero ∧ t.status.faultValue = 0 ∧ ∃ a b c, i = .mod a b c) ∨
    (t.status.faultCode = .stackOverflow ∧ ∃ a, (i = .push a ∧ resolve s a = .ok t.status.faultValue) ∨
      (i = .call a ∧ t.status.faultValue = s.pc + 2))

/-- How a step of the machine, the host's commands among them, leaves RUNNING (R31): HALTED only by halt or by ret on an
empty stack; PAUSED only by in with no input, by a breakpoint match, or by the host's STOP or RESET with a well-formed
image, each with its cause; FAULTED only by a raise of the step, whose code, value and pc are recorded, or by RESET with a
malformed image. When a command of the host is due is the model's choice (log entry 3). -/
def Obligations.RunningIsLeftOnlyAsTheTableSays : Prop :=
  ∀ s t, s.status.state = .running → step s = .next t →
    (t.status.state = .halted →
      NoneDue s ∧ (fetch s = .ok .halt ∨ (fetch s = .ok .ret ∧ s.stack = []))) ∧
    (t.status.state = .paused →
      (t.status.pauseCause = .input ∧ NoneDue s ∧ s.input = [] ∧ ∃ a, fetch s = .ok (.inp a)) ∨
      (t.status.pauseCause = .breakpoint ∧ NoneDue s ∧ s.force = false ∧ s.breakEn = true ∧ s.pc = s.breakAddr) ∨
      (t.status.pauseCause = .host ∧ ∃ rest, s.pending = ⟨0, .stop⟩ :: rest) ∨
      (t.status.pauseCause = .host ∧ ∃ image rest, s.pending = ⟨0, .reset image⟩ :: rest ∧ image.length % 2 = 0 ∧
        image.length ≤ 65536)) ∧
    (t.status.state = .faulted →
      (NoneDue s ∧ ∃ code v, code ≠ .none ∧ executeAtPc s = .next (faultedWith code v s) ∧
        t.status = (faultedWith code v s).status) ∨
      (t.status.faultCode = .malformedImage ∧ ∃ image rest, s.pending = ⟨0, .reset image⟩ :: rest ∧
        (image.length % 2 = 1 ∨ 65536 < image.length)))

/-- How RUNNING is left by an executed instruction (R31): HALTED only by halt or by ret on an empty stack, PAUSED only by in
with no input, with cause INPUT, FAULTED only by a raise, which leaves everything but the status record as it was. -/
def Obligations.InstructionsLeaveRunningOnlyAsTheTableSays : Prop :=
  ∀ i s t, s.status.state = .running → exec i s = .next t →
    (t.status.state = .halted → i = .halt ∨ (i = .ret ∧ s.stack = [])) ∧
    (t.status.state = .paused → (∃ a, i = .inp a) ∧ s.input = [] ∧ t.status.pauseCause = .input) ∧
    (t.status.state = .faulted → ∃ code v, code ≠ .none ∧ t = faultedWith code v s)

/-- Only push, pop, call and ret reach the call stack (R29). -/
def Obligations.OnlyStackInstructionsReachTheStack : Prop :=
  ∀ i s t, exec i s = .next t → t.stack ≠ s.stack →
    (∃ a, i = .push a) ∨ (∃ a, i = .pop a) ∨ (∃ a, i = .call a) ∨ i = .ret

/-- Only out sends, exactly one character after those sent before; only in takes, exactly the head of the queue (R180,
R183, R246). -/
def Obligations.OnlyOutSendsAndOnlyInTakes : Prop :=
  ∀ i s t, exec i s = .next t →
    (t.output = s.output ∨ ((∃ a, i = .out a) ∧ ∃ c, t.output = s.output ++ [c])) ∧
    (t.input = s.input ∨ ((∃ a, i = .inp a) ∧ ∃ v, s.input = v :: t.input))

/-- A register changes only as the D operand of an instruction that has one (R21): no instruction writes a register
implicitly. -/
def Obligations.OnlyTheDestinationRegisterChanges : Prop :=
  ∀ i s t r, exec i s = .next t → readReg t r ≠ readReg s r → dstOperand i = some (.register r)

/-- A byte of memory changes only in the word that a D operand in memory range names or that wmem's first operand resolves
to (R55, R120, R128). -/
def Obligations.OnlyTheDestinationWordChanges : Prop :=
  ∀ i s t k, exec i s = .next t → readByte t.mem k ≠ readByte s.mem k →
    (∃ v : BitVec 15, dstOperand i = some (.literal v) ∧ k / 2 = v.toNat) ∨
    (∃ a b va, i = .wmem a b ∧ resolve s a = .ok va ∧ va.toNat < 32768 ∧ k / 2 = va.toNat)

/-- No instruction writes both a register and memory (R107). -/
def Obligations.NoInstructionWritesRegisterAndMemory : Prop :=
  ∀ i s t r k, exec i s = .next t → readReg t r ≠ readReg s r → readByte t.mem k = readByte s.mem k

/-- No instruction reads or writes the host-side debug state, BREAK_EN, BREAK_ADDR and FORCE (R33, R231): every instruction
leaves them as they are, and with any other values of them it does the same. The same is said of the model's own field
pending (log entry 3). The parameter STACK_DEPTH (the field cfg, log entry 2) is left as it is; push and call read it. -/
def Obligations.NoInstructionTouchesTheHostSide : Prop :=
  ∀ i s, ∃ t, exec i s = .next t ∧ SameHostSide s t ∧
    ∀ en addr force plan,
      exec i (withHostSide en addr force plan s) = .next (withHostSide en addr force plan t)

/-- No instruction reads the status record (R32), so none can detect a pause (R231): with any other status record it does
the same, up to the status record it leaves. -/
def Obligations.NoInstructionReadsTheStatusRecord : Prop :=
  ∀ i s st, ∃ t st', exec i s = .next t ∧ exec i { s with status := st } = .next { t with status := st' }

/-- HALTED and FAULTED are left only by the host's RESET (R206, R241). -/
def Obligations.TerminalStatesAreLeftOnlyByReset : Prop :=
  ∀ s t, s.status.state = .halted ∨ s.status.state = .faulted → step s = .next t →
    t.status = s.status ∨ ∃ n image rest, s.pending = ⟨n, .reset image⟩ :: rest

/-- The memory port (R52): a step's transactions are at most four instruction-word reads, exactly those of R91 and R93,
then the one data read of a committed rmem at its resolved index, then the one write of a committed wmem or D operand in
memory range, all below 32768; and they account for memory: memory after the step is memory before it with the write
done. -/
def Obligations.MemoryPortAccountsForEachStep : Prop :=
  ∀ s, Enabled s →
    (∃ t, step s = .next t ∧
      ∀ k, readByte t.mem k = readByte ((stepAccesses s).foldl MemAccess.apply s.mem) k) ∧
    (∀ x ∈ stepAccesses s, x.address < 32768) ∧
    ∃ (fetches reads : List Nat) (writes : List (Nat × Word)),
      stepAccesses s = fetches.map .read ++ reads.map .read ++ writes.map (fun w => .write w.1 w.2) ∧
      fetches.length ≤ 4 ∧ reads.length ≤ 1 ∧ writes.length ≤ 1 ∧
      InstructionWordsAt s fetches ∧ (∀ x, x ∈ reads ↔ ReadsDataAt s x) ∧
      (∀ x, x ∈ writes.map Prod.fst ↔ WritesWordAt s x)

/-! ### The host -/

/-- RUN (R222): in PAUSED it clears PAUSE_CAUSE, sets FORCE and starts the block, whose first step is forced past any
breakpoint; in the other states it does nothing. -/
def Obligations.RunStartsAForcedStep : Prop :=
  ∀ s rest, s.pending = ⟨0, .run⟩ :: rest →
    (s.status.state = .paused →
      step s = .next { s with status := { s.status with state := .running, pauseCause := .none }, force := true,
                              pending := rest }) ∧
    (s.status.state ≠ .paused → step s = .next { s with pending := rest }) ∧
    (s.status.state = .paused → rest = [] → ∀ t, step s = .next t →
      ∃ u, executeAtPc t = .next u ∧ step t = .next (endStep u))

/-- STEP (R223): in PAUSED it executes exactly one forced step, as after RUN, and pauses with cause HOST if the block is
then still RUNNING; in HALTED and FAULTED it does nothing. That the start, the step and the pause are one step of the machine
is the model's choice (log entry 10). -/
def Obligations.StepCommandExecutesOneStep : Prop :=
  ∀ s rest, s.pending = ⟨0, .step⟩ :: rest →
    (s.status.state = .paused →
      ∃ u, executeAtPc { s with status := { s.status with state := .running, pauseCause := .none }, force := true,
                                pending := rest } = .next u ∧
        (u.status.state = .running →
          step s = .next { u with status := { u.status with state := .paused, pauseCause := .host }, force := false }) ∧
        (u.status.state ≠ .running → step s = .next { u with force := false })) ∧
    (s.status.state = .halted ∨ s.status.state = .faulted → step s = .next { s with pending := rest })

/-- STOP in RUNNING (R221): the block pauses between steps with cause HOST, and nothing else of it changes. -/
def Obligations.StopPausesARunningBlock : Prop :=
  ∀ s rest, s.pending = ⟨0, .stop⟩ :: rest → s.status.state = .running →
    step s = .next { s with status := { s.status with state := .paused, pauseCause := .host }, pending := rest }

/-- SETREG (R227) and SETPC (R228) set the register or the pc, in any STATE, and change nothing else. -/
def Obligations.HostOverwritesRegisterOrPc : Prop :=
  (∀ s rest r v, s.pending = ⟨0, .setReg r v⟩ :: rest →
    ∃ t, step s = .next t ∧ readReg t r = v ∧ (∀ q, q ≠ r → readReg t q = readReg s q) ∧
      { t with regs := s.regs, pending := s.pending } = s ∧ t.pending = rest) ∧
  (∀ s rest a, s.pending = ⟨0, .setPc a⟩ :: rest → step s = .next { s with pc := a, pending := rest })

/-- BREAK, ENQUEUE, SNAPSHOT and EXIT (R220, R226, R229): the breakpoint is enabled at the address, the words are appended at
the tail of the input queue in order, a snapshot changes nothing, and EXIT has no effect on the block's state. That after
EXIT nothing comes from the host is the model's choice (log entry 11). -/
def Obligations.HostSetsBreakpointAndInput : Prop :=
  (∀ s rest a, s.pending = ⟨0, .breakAt a⟩ :: rest →
    step s = .next { s with breakEn := true, breakAddr := a, pending := rest }) ∧
  (∀ s rest ws, s.pending = ⟨0, .enqueue ws⟩ :: rest →
    step s = .next { s with input := s.input ++ ws, pending := rest }) ∧
  (∀ s rest, s.pending = ⟨0, .snapshot⟩ :: rest → step s = .next { s with pending := rest }) ∧
  (∀ s rest, s.pending = ⟨0, .exit⟩ :: rest → step s = .next { s with pending := [] })

/-- RESET(image) with a well-formed image (R35, R242): every piece of state at its reset value, the image's little-endian
words from address 0 on and zeros after them, unchecked. (The model's own fields are no state of the block and stay: log
entry 3.) -/
def Obligations.ResetLoadsTheImage : Prop :=
  ∀ s rest image, s.pending = ⟨0, .reset image⟩ :: rest → image.length % 2 = 0 → image.length ≤ 65536 →
    ∃ t, step s = .next t ∧ (∀ r, readReg t r = 0) ∧ t.pc = 0 ∧ t.stack = [] ∧ t.output = [] ∧ t.input = [] ∧
      t.status = { state := .paused, pauseCause := .host, faultCode := .none, faultValue := 0, faultPc := 0 } ∧
      t.breakEn = false ∧ t.breakAddr = 0 ∧ t.force = false ∧ t.pending = rest ∧ t.cfg = s.cfg ∧
      (∀ k lo hi, image[2 * k]? = some lo → image[2 * k + 1]? = some hi →
        (readWord t.mem k).toNat = lo.toNat + 256 * hi.toNat) ∧
      (∀ k, image.length ≤ 2 * k → readWord t.mem k = 0)

/-- RESET with a malformed image (R243): reset with memory all zero, then FAULTED with MalformedImage, value 1 for an odd
byte count and 2 for one too long, either one for an image that is both (log entry 6), FAULT_PC 0; and no step executes. -/
def Obligations.MalformedImageFaultsAtLoad : Prop :=
  ∀ s rest image, s.pending = ⟨0, .reset image⟩ :: rest → image.length % 2 = 1 ∨ 65536 < image.length →
    ∃ t, step s = .next t ∧ (∀ r, readReg t r = 0) ∧ t.pc = 0 ∧ t.stack = [] ∧ t.output = [] ∧ t.input = [] ∧
      (∀ k, readWord t.mem k = 0) ∧ t.breakEn = false ∧ t.breakAddr = 0 ∧ t.force = false ∧ t.pending = rest ∧
      t.status.state = .faulted ∧ t.status.faultCode = .malformedImage ∧ t.status.faultCode.code = 6 ∧
      t.status.faultPc = 0 ∧
      (image.length ≤ 65536 → t.status.faultValue = 1) ∧ (image.length % 2 = 0 → t.status.faultValue = 2) ∧
      (t.status.faultValue = 1 ∨ t.status.faultValue = 2) ∧ (rest = [] → ∀ u, step t ≠ .next u)

/-- The state after reset with nothing loaded (R35). -/
def Obligations.ResetStateHoldsTheResetValues : Prop :=
  (∀ r, readReg State.reset r = 0) ∧ State.reset.pc = 0 ∧ State.reset.stack = [] ∧ State.reset.output = [] ∧
  State.reset.input = [] ∧ (∀ k, readWord State.reset.mem k = 0) ∧
  State.reset.status.state.code = 1 ∧ State.reset.status.pauseCause.code = 3 ∧
  State.reset.status.faultCode.code = 0 ∧ State.reset.status.faultValue = 0 ∧ State.reset.status.faultPc = 0 ∧
  State.reset.breakEn = false ∧ State.reset.breakAddr = 0 ∧ State.reset.force = false

/-- The disassembly walk (R84): it ends at the end of the buffer, shows the instruction whose words stand at p and goes on
after it, and passes over a word that is no opcode. -/
def Obligations.DisassemblyWalksTheBank : Prop :=
  (∀ m stop fuel p, stop ≤ p → disassembleFrom m stop fuel p = []) ∧
  (∀ m stop fuel p (i : Instr), i.wf = true → p + i.length ≤ stop → StandsAt i m p →
    disassembleFrom m stop (fuel + 1) p =
      ⟨p, i.mnemonic, i.operands⟩ :: disassembleFrom m stop fuel (p + 1 + i.operands.length)) ∧
  (∀ m stop fuel p, p < stop → 22 ≤ (readWord m p).toNat →
    disassembleFrom m stop (fuel + 1) p = disassembleFrom m stop fuel (p + 1)) ∧
  (∀ m, disassemble m = disassembleFrom m 32768 32768 0)

/-! ### The invariant -/

/-- Every step, the host's commands among them, keeps the invariant: canonical memory inside the storage, a status record
that says one thing, a stack within STACK_DEPTH. That PAUSE_CAUSE is NONE in FAULTED after RESET with a malformed image is
the model's reading (log entry 4): R243 lists no write of it. When a host's command is given is log entry 3. -/
def Obligations.StepKeepsTheInvariant : Prop := ∀ s t, s.Inv → step s = .next t → t.Inv

/-- The state after reset has the invariant. -/
def Obligations.ResetHasTheInvariant : Prop := State.reset.Inv
end

