-- ==== Sys2Proof/Laws/Decode.lean ====
section
/-! SUPPORT. Operand words and their classes (30_encoding.md R72), one spec lemma for each decoder of a format. -/

namespace Sys2Proof

/-- The class of a word is well formed (R72). -/
theorem Operand.ofWord_wf (w : Word) : (Operand.ofWord w).wf = true := by
  unfold Operand.ofWord
  split
  · rfl
  · split
    · rfl
    · next h => exact decide_eq_true (Nat.le_of_not_lt h)

/-- An operand word is recovered from its class. -/
theorem Operand.toWord_ofWord (w : Word) : (Operand.ofWord w).toWord = w := by
  have hw := w.isLt
  unfold Operand.ofWord
  split
  · next h =>
    simp only [Config.regBase] at h
    apply BitVec.eq_of_toNat_eq
    simp only [Operand.toWord, BitVec.toNat_setWidth]
    omega
  · next h =>
    split
    · next h2 =>
      simp only [Config.regBase, Config.invalidMin] at h h2
      apply BitVec.eq_of_toNat_eq
      simp only [Operand.toWord, Config.regBase, BitVec.toNat_ofNat, Fin.val_ofNat]
      omega
    · rfl

/-- The class of the word of a well-formed operand is that operand. -/
theorem Operand.ofWord_toWord {o : Operand} (h : o.wf = true) : Operand.ofWord o.toWord = o := by
  cases o with
  | literal v =>
    have hv := v.isLt
    have h16 : (v.setWidth 16).toNat = v.toNat := by simp only [BitVec.toNat_setWidth]; omega
    have hlt : (v.setWidth 16).toNat < Config.regBase := by rw [h16]; exact hv
    have hback : (v.setWidth 16).setWidth 15 = v := by
      apply BitVec.eq_of_toNat_eq
      rw [BitVec.toNat_setWidth, h16]
      exact Nat.mod_eq_of_lt hv
    simp only [Operand.toWord, Operand.ofWord, hlt, if_true, hback]
  | register i =>
    have hi := i.isLt
    have ht : (BitVec.ofNat 16 (32768 + i.val)).toNat = 32768 + i.val := by
      rw [BitVec.toNat_ofNat]; omega
    have h1 : ¬ 32768 + i.val < 32768 := by omega
    have h2 : 32768 + i.val < 32776 := by omega
    simp only [Operand.toWord, Operand.ofWord, Config.regBase, Config.invalidMin, ht, h1, h2, if_true, if_false,
      Nat.add_sub_cancel_left]
    exact congrArg Operand.register (Fin.ext (Nat.mod_eq_of_lt hi))
  | invalid w =>
    have h' : 32776 ≤ w.toNat := of_decide_eq_true h
    exact (if_neg (by show ¬ w.toNat < 32768; omega)).trans (if_neg (Nat.not_lt.2 h'))

/-- A word below 32768 is a literal, of that value (R72). -/
theorem Operand.ofWord_literal {w : Word} (h : w.toNat < 32768) : Operand.ofWord w = .literal (w.setWidth 15) :=
  if_pos h

/-- The word 32768 + i is the register token of register i (R72). -/
theorem Operand.ofWord_register {w : Word} {i : Fin 8} (h : w.toNat = 32768 + i.val) :
    Operand.ofWord w = .register i := by
  have hi := i.isLt
  have h1 : ¬ w.toNat < 32768 := by omega
  have h2 : w.toNat < 32776 := by omega
  refine (if_neg h1).trans ((if_pos h2).trans (congrArg Operand.register (Fin.ext ?_)))
  rw [Fin.val_ofNat, h, Nat.add_sub_cancel_left]
  exact Nat.mod_eq_of_lt hi

/-- A word of 32776..65535 is invalid (R72). -/
theorem Operand.ofWord_invalid {w : Word} (h : 32776 ≤ w.toNat) : Operand.ofWord w = .invalid w :=
  (if_neg (by show ¬ w.toNat < 32768; omega)).trans (if_neg (Nat.not_lt.2 h))

/-- Format F1 decodes its one operand word. -/
theorem decodeF1_cons (mk : Operand → Instr) (a : Word) (rest : List Word) :
    decodeF1 mk (a :: rest) = .ok (mk (.ofWord a), rest) := rfl

/-- Format F2 decodes its two operand words. -/
theorem decodeF2_cons (mk : Operand → Operand → Instr) (a b : Word) (rest : List Word) :
    decodeF2 mk (a :: b :: rest) = .ok (mk (.ofWord a) (.ofWord b), rest) := rfl

/-- Format F3 decodes its three operand words. -/
theorem decodeF3_cons (mk : Operand → Operand → Operand → Instr) (a b c : Word) (rest : List Word) :
    decodeF3 mk (a :: b :: c :: rest) = .ok (mk (.ofWord a) (.ofWord b) (.ofWord c), rest) := rfl

/-- What format F1 answers comes from one operand word. -/
theorem decodeF1_ok {mk : Operand → Instr} {ws rest : List Word} {i : Instr}
    (h : decodeF1 mk ws = .ok (i, rest)) : ∃ a, ws = a :: rest ∧ i = mk (.ofWord a) := by
  unfold decodeF1 at h
  split at h <;> simp_all

/-- What format F2 answers comes from two operand words. -/
theorem decodeF2_ok {mk : Operand → Operand → Instr} {ws rest : List Word} {i : Instr}
    (h : decodeF2 mk ws = .ok (i, rest)) :
    ∃ a b, ws = a :: b :: rest ∧ i = mk (.ofWord a) (.ofWord b) := by
  unfold decodeF2 at h
  split at h <;> simp_all

/-- What format F3 answers comes from three operand words. -/
theorem decodeF3_ok {mk : Operand → Operand → Operand → Instr} {ws rest : List Word} {i : Instr}
    (h : decodeF3 mk ws = .ok (i, rest)) :
    ∃ a b c, ws = a :: b :: c :: rest ∧ i = mk (.ofWord a) (.ofWord b) (.ofWord c) := by
  unfold decodeF3 at h
  split at h <;> simp_all

end Sys2Proof
end

