-- ==== Sys2Proof/Laws/Memory.lean ====
section
/-! SUPPORT. The laws of memory: a read after a write, in every memory, canonical or not; and that every memory
operation keeps the canonical form. -/

namespace Sys2Proof.Machine

/-! ### Words and bytes -/

theorem wordOfBytes_low_high (w : Word) : wordOfBytes (lowByte w) (highByte w) = w := by
  apply BitVec.eq_of_getLsbD_eq
  intro i hi
  simp only [wordOfBytes, lowByte, highByte, BitVec.getLsbD_append, BitVec.getLsbD_extractLsb']
  by_cases h : i < 8
  · simp [h]
  · have h8 : i - 8 < 8 := by omega
    have hs : 8 + (i - 8) = i := by omega
    simp [h, h8, hs]

theorem wordOfBytes_toNat (lo hi : Byte) : (wordOfBytes lo hi).toNat = lo.toNat + 256 * hi.toNat := by
  have hlo := lo.isLt
  have hhi := hi.isLt
  have h : wordOfBytes lo hi = BitVec.ofNat 16 (hi.toNat <<< 8 ||| lo.toNat) := by
    apply BitVec.eq_of_toNat_eq
    rw [BitVec.toNat_ofNat, wordOfBytes, BitVec.toNat_append, Nat.mod_eq_of_lt]
    rw [← Nat.shiftLeft_add_eq_or_of_lt hlo, Nat.shiftLeft_eq]
    omega
  rw [h, ← Nat.shiftLeft_add_eq_or_of_lt hlo, BitVec.toNat_ofNat, Nat.shiftLeft_eq, Nat.mod_eq_of_lt] <;> omega

/-! ### Bytes -/

theorem readByte_eraseByte (m : Memory) (a k : Nat) :
    readByte (eraseByte m a) k = if k = a then unlistedByte else readByte m k := by
  induction m with
  | nil => simp [eraseByte, readByte]
  | cons c rest ih =>
    obtain ⟨k0, b⟩ := c
    by_cases h : k0 = a
    · subst h
      have : eraseByte ((k0, b) :: rest) k0 = eraseByte rest k0 := by simp [eraseByte]
      rw [this, ih]
      by_cases hk : k = k0
      · simp [hk]
      · simp [hk, readByte, Ne.symm hk]
    · have : eraseByte ((k0, b) :: rest) a = (k0, b) :: eraseByte rest a := by simp [eraseByte, h]
      rw [this]
      simp only [readByte]
      by_cases hk : k0 = k
      · subst hk
        simp [h]
      · simp only [hk, if_false, ih]

theorem readByte_insertByte (m : Memory) (a k : Nat) (v : Byte) :
    readByte (insertByte m a v) k = if k = a then v else readByte m k := by
  induction m with
  | nil => by_cases h : k = a <;> simp [insertByte, readByte, h, Ne.symm]
  | cons c rest ih =>
    obtain ⟨k0, b⟩ := c
    by_cases hk : k = a
    · subst hk
      by_cases h1 : k < k0
      · simp [insertByte, h1, readByte]
      · by_cases h2 : k = k0
        · simp [insertByte, h2, readByte]
        · simp [insertByte, h1, h2, readByte, ih, Ne.symm h2]
    · have hk' : ¬ a = k := fun h => hk h.symm
      by_cases h1 : a < k0
      · simp [insertByte, h1, readByte, hk, hk']
      · by_cases h2 : a = k0
        · subst h2
          simp [insertByte, readByte, hk, hk']
        · simp only [insertByte, h1, h2, readByte, if_false, ih, hk]

/-- A byte read after a write: the byte written there, and every other byte as before. -/
theorem readByte_writeByte (m : Memory) (a k : Nat) (v : Byte) :
    readByte (writeByte m a v) k = if k = a then v else readByte m k := by
  by_cases h : v = unlistedByte
  · simp [writeByte, h, readByte_eraseByte]
  · simp [writeByte, h, readByte_insertByte]

/-! ### Words -/

/-- The bytes of memory after a word is written (R55, R102): its two bytes at that word, every other byte as before. -/
theorem readByte_writeWord (m : Memory) (a k : Nat) (v : Word) :
    readByte (writeWord m a v) k =
      if k = 2 * a + 1 then highByte v else if k = 2 * a then lowByte v else readByte m k := by
  simp only [writeWord, readByte_writeByte]

/-- Reading a word just written gives the word written (R57). -/
@[simp] theorem readWord_writeWord_same (m : Memory) (a : Nat) (v : Word) : readWord (writeWord m a v) a = v := by
  have h : ¬ 2 * a = 2 * a + 1 := by omega
  simp only [readWord, readByte_writeWord, h, if_true, if_false, wordOfBytes_low_high]

/-- A word written leaves every other word alone (R57). -/
theorem readWord_writeWord_ne (m : Memory) {a k : Nat} (v : Word) (h : k ≠ a) :
    readWord (writeWord m a v) k = readWord m k := by
  have h1 : ¬ 2 * k = 2 * a + 1 := by omega
  have h2 : ¬ 2 * k = 2 * a := by omega
  have h3 : ¬ 2 * k + 1 = 2 * a + 1 := by omega
  have h4 : ¬ 2 * k + 1 = 2 * a := by omega
  simp only [readWord, readByte_writeWord, h1, h2, h3, h4, if_false]

/-- Every word of the empty memory is 0 (R35). -/
@[simp] theorem readWord_nil (k : Nat) : readWord [] k = 0 := by
  simp only [readWord, readByte]
  decide

/-! ### The canonical form -/

theorem eraseByte_wf {m : Memory} (h : Memory.wf m) (a : Nat) : Memory.wf (eraseByte m a) :=
  ⟨h.1.sublist List.filter_sublist, fun c hc => h.2 c (List.mem_of_mem_filter hc)⟩

theorem insertByte_wf {m : Memory} (h : Memory.wf m) {a : Nat} {v : Byte} (ha : a < Config.memBytes)
    (hv : v ≠ unlistedByte) : Memory.wf (insertByte m a v) := by
  have mem_insert : ∀ (m : Memory) (c : Host.Cell), c ∈ insertByte m a v → c = (a, v) ∨ c ∈ m := by
    intro m
    induction m with
    | nil => intro c hc; simpa [insertByte] using hc
    | cons d rest ih =>
      obtain ⟨k0, b⟩ := d
      intro c hc
      by_cases h1 : a < k0
      · simpa [insertByte, h1] using hc
      · by_cases h2 : a = k0
        · subst h2
          simp only [insertByte, Nat.lt_irrefl, if_true, if_false] at hc
          rcases List.mem_cons.1 hc with hc | hc
          · exact .inl hc
          · exact .inr (List.mem_cons_of_mem _ hc)
        · simp only [insertByte, h1, h2, if_false] at hc
          rcases List.mem_cons.1 hc with hc | hc
          · exact .inr (by simp [hc])
          · rcases ih c hc with hc | hc
            · exact .inl hc
            · exact .inr (List.mem_cons_of_mem _ hc)
  refine ⟨?_, ?_⟩
  · obtain ⟨hp, -⟩ := h
    induction m with
    | nil => simp [insertByte]
    | cons d rest ih =>
      obtain ⟨k0, b⟩ := d
      rw [List.pairwise_cons] at hp
      by_cases h1 : a < k0
      · simp only [insertByte, h1, if_true]
        rw [List.pairwise_cons, List.pairwise_cons]
        refine ⟨?_, hp⟩
        intro c hc
        rcases List.mem_cons.1 hc with rfl | hc
        · exact h1
        · exact Nat.lt_trans h1 (hp.1 c hc)
      · by_cases h2 : a = k0
        · subst h2
          simp only [insertByte, Nat.lt_irrefl, if_true, if_false]
          exact List.pairwise_cons.2 hp
        · simp only [insertByte, h1, h2, if_false]
          rw [List.pairwise_cons]
          refine ⟨?_, ih hp.2⟩
          intro c hc
          rcases mem_insert rest c hc with rfl | hc
          · show k0 < a; omega
          · exact hp.1 c hc
  · intro c hc
    rcases mem_insert m c hc with rfl | hc
    · exact ⟨hv, ha⟩
    · exact h.2 c hc

/-- Writing a byte of the storage keeps the canonical form. -/
theorem writeByte_wf {m : Memory} (h : Memory.wf m) {a : Nat} (v : Byte) (ha : a < Config.memBytes) :
    Memory.wf (writeByte m a v) := by
  by_cases hv : v = unlistedByte
  · simpa [writeByte, hv] using eraseByte_wf h a
  · simpa only [writeByte, hv, if_false] using insertByte_wf h ha hv

/-- Writing a word of memory keeps the canonical form. -/
theorem writeWord_wf {m : Memory} (h : Memory.wf m) {a : Nat} (v : Word) (ha : a < Config.memWords) :
    Memory.wf (writeWord m a v) := by
  simp only [Config.memWords] at ha
  refine writeByte_wf (writeByte_wf h _ ?_) _ ?_ <;> simp only [Config.memBytes] <;> omega

/-! ### Loading an image -/

/-- What the bytes of a loaded image read as: the image's byte, and zero outside it. -/
theorem readByte_loadBytes (k : Nat) (bytes : List Byte) (a : Nat) :
    readByte (loadBytes k bytes) a = if k ≤ a then bytes.getD (a - k) unlistedByte else unlistedByte := by
  induction bytes generalizing k with
  | nil => simp [loadBytes, readByte]
  | cons b rest ih =>
    by_cases hb : b = unlistedByte
    · simp only [loadBytes, hb, if_true, ih]
      rcases Nat.lt_trichotomy a k with h | h | h
      · simp [Nat.not_le.2 h, show ¬ k + 1 ≤ a by omega]
      · subst h; simp [show ¬ a + 1 ≤ a by omega]
      · have hs : a - k = (a - (k + 1)) + 1 := by omega
        simp [show k + 1 ≤ a by omega, show k ≤ a by omega, hs]
    · simp only [loadBytes, hb, if_false, readByte, ih]
      rcases Nat.lt_trichotomy a k with h | h | h
      · simp [Nat.not_le.2 h, show ¬ k = a by omega, show ¬ k + 1 ≤ a by omega]
      · subst h; simp
      · have hs : a - k = (a - (k + 1)) + 1 := by omega
        simp [show ¬ k = a by omega, show k + 1 ≤ a by omega, show k ≤ a by omega, hs]

/-- A loaded image is canonical where it fits the storage. -/
theorem loadBytes_wf (k : Nat) (bytes : List Byte) (h : k + bytes.length ≤ Config.memBytes) :
    Memory.wf (loadBytes k bytes) ∧ ∀ c ∈ loadBytes k bytes, k ≤ c.1 := by
  induction bytes generalizing k with
  | nil => simp [loadBytes, Memory.wf]
  | cons b rest ih =>
    simp only [List.length_cons] at h
    obtain ⟨hwf, hge⟩ := ih (k + 1) (by omega)
    by_cases hb : b = unlistedByte
    · simp only [loadBytes, hb, if_true]
      exact ⟨hwf, fun c hc => by have := hge c hc; omega⟩
    · simp only [loadBytes, hb, if_false]
      refine ⟨⟨List.pairwise_cons.2 ⟨fun c hc => hge c hc, hwf.1⟩, ?_⟩, ?_⟩
      · intro c hc
        rcases List.mem_cons.1 hc with rfl | hc
        · exact ⟨hb, by show k < Config.memBytes; omega⟩
        · exact hwf.2 c hc
      · intro c hc
        rcases List.mem_cons.1 hc with rfl | hc
        · exact Nat.le_refl k
        · have := hge c hc; omega

/-- The memory of an image that fits is canonical. -/
theorem loadImage_wf (image : List Byte) (h : image.length ≤ Config.memBytes) : Memory.wf (loadImage image) :=
  (loadBytes_wf 0 image (by omega)).1

/-- The empty memory is canonical, and so is memory at reset. -/
theorem reset_mem_wf : Memory.wf State.reset.mem := by simp [State.reset, Memory.wf]

end Sys2Proof.Machine
end

