-- ==== Sys2Proof/Laws/State.lean ====
section
/-! SUPPORT. One lemma per field per named update of State: what the update makes of the field. Later proofs rewrite
with these and unfold no record update. -/

namespace Sys2Proof.Machine

/-! ### writeReg -/

@[simp] theorem writeReg_regs (i : Fin 8) (v : Word) (s : State) : (writeReg i v s).regs = s.regs.set i v := rfl
@[simp] theorem writeReg_pc (i : Fin 8) (v : Word) (s : State) : (writeReg i v s).pc = s.pc := rfl
@[simp] theorem writeReg_mem (i : Fin 8) (v : Word) (s : State) : (writeReg i v s).mem = s.mem := rfl
@[simp] theorem writeReg_stack (i : Fin 8) (v : Word) (s : State) : (writeReg i v s).stack = s.stack := rfl
@[simp] theorem writeReg_status (i : Fin 8) (v : Word) (s : State) : (writeReg i v s).status = s.status := rfl
@[simp] theorem writeReg_output (i : Fin 8) (v : Word) (s : State) : (writeReg i v s).output = s.output := rfl
@[simp] theorem writeReg_input (i : Fin 8) (v : Word) (s : State) : (writeReg i v s).input = s.input := rfl
@[simp] theorem writeReg_breakEn (i : Fin 8) (v : Word) (s : State) : (writeReg i v s).breakEn = s.breakEn := rfl
@[simp] theorem writeReg_breakAddr (i : Fin 8) (v : Word) (s : State) : (writeReg i v s).breakAddr = s.breakAddr := rfl
@[simp] theorem writeReg_force (i : Fin 8) (v : Word) (s : State) : (writeReg i v s).force = s.force := rfl
@[simp] theorem writeReg_pending (i : Fin 8) (v : Word) (s : State) : (writeReg i v s).pending = s.pending := rfl
@[simp] theorem writeReg_cfg (i : Fin 8) (v : Word) (s : State) : (writeReg i v s).cfg = s.cfg := rfl

/-! ### writeMem -/

@[simp] theorem writeMem_regs (a : Nat) (v : Word) (s : State) : (writeMem a v s).regs = s.regs := rfl
@[simp] theorem writeMem_pc (a : Nat) (v : Word) (s : State) : (writeMem a v s).pc = s.pc := rfl
@[simp] theorem writeMem_mem (a : Nat) (v : Word) (s : State) : (writeMem a v s).mem = writeWord s.mem a v := rfl
@[simp] theorem writeMem_stack (a : Nat) (v : Word) (s : State) : (writeMem a v s).stack = s.stack := rfl
@[simp] theorem writeMem_status (a : Nat) (v : Word) (s : State) : (writeMem a v s).status = s.status := rfl
@[simp] theorem writeMem_output (a : Nat) (v : Word) (s : State) : (writeMem a v s).output = s.output := rfl
@[simp] theorem writeMem_input (a : Nat) (v : Word) (s : State) : (writeMem a v s).input = s.input := rfl
@[simp] theorem writeMem_breakEn (a : Nat) (v : Word) (s : State) : (writeMem a v s).breakEn = s.breakEn := rfl
@[simp] theorem writeMem_breakAddr (a : Nat) (v : Word) (s : State) : (writeMem a v s).breakAddr = s.breakAddr := rfl
@[simp] theorem writeMem_force (a : Nat) (v : Word) (s : State) : (writeMem a v s).force = s.force := rfl
@[simp] theorem writeMem_pending (a : Nat) (v : Word) (s : State) : (writeMem a v s).pending = s.pending := rfl
@[simp] theorem writeMem_cfg (a : Nat) (v : Word) (s : State) : (writeMem a v s).cfg = s.cfg := rfl

/-! ### setPc -/

@[simp] theorem setPc_regs (t : Word) (s : State) : (setPc t s).regs = s.regs := rfl
@[simp] theorem setPc_pc (t : Word) (s : State) : (setPc t s).pc = t := rfl
@[simp] theorem setPc_mem (t : Word) (s : State) : (setPc t s).mem = s.mem := rfl
@[simp] theorem setPc_stack (t : Word) (s : State) : (setPc t s).stack = s.stack := rfl
@[simp] theorem setPc_status (t : Word) (s : State) : (setPc t s).status = s.status := rfl
@[simp] theorem setPc_output (t : Word) (s : State) : (setPc t s).output = s.output := rfl
@[simp] theorem setPc_input (t : Word) (s : State) : (setPc t s).input = s.input := rfl
@[simp] theorem setPc_breakEn (t : Word) (s : State) : (setPc t s).breakEn = s.breakEn := rfl
@[simp] theorem setPc_breakAddr (t : Word) (s : State) : (setPc t s).breakAddr = s.breakAddr := rfl
@[simp] theorem setPc_force (t : Word) (s : State) : (setPc t s).force = s.force := rfl
@[simp] theorem setPc_pending (t : Word) (s : State) : (setPc t s).pending = s.pending := rfl
@[simp] theorem setPc_cfg (t : Word) (s : State) : (setPc t s).cfg = s.cfg := rfl

/-! ### advance -/

@[simp] theorem advance_regs (n : Nat) (s : State) : (advance n s).regs = s.regs := rfl
@[simp] theorem advance_pc (n : Nat) (s : State) : (advance n s).pc = nextPc n s := rfl
@[simp] theorem advance_mem (n : Nat) (s : State) : (advance n s).mem = s.mem := rfl
@[simp] theorem advance_stack (n : Nat) (s : State) : (advance n s).stack = s.stack := rfl
@[simp] theorem advance_status (n : Nat) (s : State) : (advance n s).status = s.status := rfl
@[simp] theorem advance_output (n : Nat) (s : State) : (advance n s).output = s.output := rfl
@[simp] theorem advance_input (n : Nat) (s : State) : (advance n s).input = s.input := rfl
@[simp] theorem advance_breakEn (n : Nat) (s : State) : (advance n s).breakEn = s.breakEn := rfl
@[simp] theorem advance_breakAddr (n : Nat) (s : State) : (advance n s).breakAddr = s.breakAddr := rfl
@[simp] theorem advance_force (n : Nat) (s : State) : (advance n s).force = s.force := rfl
@[simp] theorem advance_pending (n : Nat) (s : State) : (advance n s).pending = s.pending := rfl
@[simp] theorem advance_cfg (n : Nat) (s : State) : (advance n s).cfg = s.cfg := rfl

/-! ### stackPush -/

@[simp] theorem stackPush_regs (v : Word) (s : State) : (stackPush v s).regs = s.regs := rfl
@[simp] theorem stackPush_pc (v : Word) (s : State) : (stackPush v s).pc = s.pc := rfl
@[simp] theorem stackPush_mem (v : Word) (s : State) : (stackPush v s).mem = s.mem := rfl
@[simp] theorem stackPush_stack (v : Word) (s : State) : (stackPush v s).stack = v :: s.stack := rfl
@[simp] theorem stackPush_status (v : Word) (s : State) : (stackPush v s).status = s.status := rfl
@[simp] theorem stackPush_output (v : Word) (s : State) : (stackPush v s).output = s.output := rfl
@[simp] theorem stackPush_input (v : Word) (s : State) : (stackPush v s).input = s.input := rfl
@[simp] theorem stackPush_breakEn (v : Word) (s : State) : (stackPush v s).breakEn = s.breakEn := rfl
@[simp] theorem stackPush_breakAddr (v : Word) (s : State) : (stackPush v s).breakAddr = s.breakAddr := rfl
@[simp] theorem stackPush_force (v : Word) (s : State) : (stackPush v s).force = s.force := rfl
@[simp] theorem stackPush_pending (v : Word) (s : State) : (stackPush v s).pending = s.pending := rfl
@[simp] theorem stackPush_cfg (v : Word) (s : State) : (stackPush v s).cfg = s.cfg := rfl

/-! ### setStack -/

@[simp] theorem setStack_regs (rest : List Word) (s : State) : (setStack rest s).regs = s.regs := rfl
@[simp] theorem setStack_pc (rest : List Word) (s : State) : (setStack rest s).pc = s.pc := rfl
@[simp] theorem setStack_mem (rest : List Word) (s : State) : (setStack rest s).mem = s.mem := rfl
@[simp] theorem setStack_stack (rest : List Word) (s : State) : (setStack rest s).stack = rest := rfl
@[simp] theorem setStack_status (rest : List Word) (s : State) : (setStack rest s).status = s.status := rfl
@[simp] theorem setStack_output (rest : List Word) (s : State) : (setStack rest s).output = s.output := rfl
@[simp] theorem setStack_input (rest : List Word) (s : State) : (setStack rest s).input = s.input := rfl
@[simp] theorem setStack_breakEn (rest : List Word) (s : State) : (setStack rest s).breakEn = s.breakEn := rfl
@[simp] theorem setStack_breakAddr (rest : List Word) (s : State) : (setStack rest s).breakAddr = s.breakAddr := rfl
@[simp] theorem setStack_force (rest : List Word) (s : State) : (setStack rest s).force = s.force := rfl
@[simp] theorem setStack_pending (rest : List Word) (s : State) : (setStack rest s).pending = s.pending := rfl
@[simp] theorem setStack_cfg (rest : List Word) (s : State) : (setStack rest s).cfg = s.cfg := rfl

/-! ### emit -/

@[simp] theorem emit_regs (c : Byte) (s : State) : (emit c s).regs = s.regs := rfl
@[simp] theorem emit_pc (c : Byte) (s : State) : (emit c s).pc = s.pc := rfl
@[simp] theorem emit_mem (c : Byte) (s : State) : (emit c s).mem = s.mem := rfl
@[simp] theorem emit_stack (c : Byte) (s : State) : (emit c s).stack = s.stack := rfl
@[simp] theorem emit_status (c : Byte) (s : State) : (emit c s).status = s.status := rfl
@[simp] theorem emit_output (c : Byte) (s : State) : (emit c s).output = s.output ++ [c] := rfl
@[simp] theorem emit_input (c : Byte) (s : State) : (emit c s).input = s.input := rfl
@[simp] theorem emit_breakEn (c : Byte) (s : State) : (emit c s).breakEn = s.breakEn := rfl
@[simp] theorem emit_breakAddr (c : Byte) (s : State) : (emit c s).breakAddr = s.breakAddr := rfl
@[simp] theorem emit_force (c : Byte) (s : State) : (emit c s).force = s.force := rfl
@[simp] theorem emit_pending (c : Byte) (s : State) : (emit c s).pending = s.pending := rfl
@[simp] theorem emit_cfg (c : Byte) (s : State) : (emit c s).cfg = s.cfg := rfl

/-! ### setInput -/

@[simp] theorem setInput_regs (rest : List Word) (s : State) : (setInput rest s).regs = s.regs := rfl
@[simp] theorem setInput_pc (rest : List Word) (s : State) : (setInput rest s).pc = s.pc := rfl
@[simp] theorem setInput_mem (rest : List Word) (s : State) : (setInput rest s).mem = s.mem := rfl
@[simp] theorem setInput_stack (rest : List Word) (s : State) : (setInput rest s).stack = s.stack := rfl
@[simp] theorem setInput_status (rest : List Word) (s : State) : (setInput rest s).status = s.status := rfl
@[simp] theorem setInput_output (rest : List Word) (s : State) : (setInput rest s).output = s.output := rfl
@[simp] theorem setInput_input (rest : List Word) (s : State) : (setInput rest s).input = rest := rfl
@[simp] theorem setInput_breakEn (rest : List Word) (s : State) : (setInput rest s).breakEn = s.breakEn := rfl
@[simp] theorem setInput_breakAddr (rest : List Word) (s : State) : (setInput rest s).breakAddr = s.breakAddr := rfl
@[simp] theorem setInput_force (rest : List Word) (s : State) : (setInput rest s).force = s.force := rfl
@[simp] theorem setInput_pending (rest : List Word) (s : State) : (setInput rest s).pending = s.pending := rfl
@[simp] theorem setInput_cfg (rest : List Word) (s : State) : (setInput rest s).cfg = s.cfg := rfl

/-! ### haltMachine -/

@[simp] theorem haltMachine_regs (s : State) : (haltMachine s).regs = s.regs := rfl
@[simp] theorem haltMachine_pc (s : State) : (haltMachine s).pc = s.pc := rfl
@[simp] theorem haltMachine_mem (s : State) : (haltMachine s).mem = s.mem := rfl
@[simp] theorem haltMachine_stack (s : State) : (haltMachine s).stack = s.stack := rfl
@[simp] theorem haltMachine_status (s : State) : (haltMachine s).status = { s.status with state := .halted } := rfl
@[simp] theorem haltMachine_output (s : State) : (haltMachine s).output = s.output := rfl
@[simp] theorem haltMachine_input (s : State) : (haltMachine s).input = s.input := rfl
@[simp] theorem haltMachine_breakEn (s : State) : (haltMachine s).breakEn = s.breakEn := rfl
@[simp] theorem haltMachine_breakAddr (s : State) : (haltMachine s).breakAddr = s.breakAddr := rfl
@[simp] theorem haltMachine_force (s : State) : (haltMachine s).force = s.force := rfl
@[simp] theorem haltMachine_pending (s : State) : (haltMachine s).pending = s.pending := rfl
@[simp] theorem haltMachine_cfg (s : State) : (haltMachine s).cfg = s.cfg := rfl

/-! ### pause -/

@[simp] theorem pause_regs (c : PauseCause) (s : State) : (pause c s).regs = s.regs := rfl
@[simp] theorem pause_pc (c : PauseCause) (s : State) : (pause c s).pc = s.pc := rfl
@[simp] theorem pause_mem (c : PauseCause) (s : State) : (pause c s).mem = s.mem := rfl
@[simp] theorem pause_stack (c : PauseCause) (s : State) : (pause c s).stack = s.stack := rfl
@[simp] theorem pause_status (c : PauseCause) (s : State) : (pause c s).status = { s.status with state := .paused, pauseCause := c } := rfl
@[simp] theorem pause_output (c : PauseCause) (s : State) : (pause c s).output = s.output := rfl
@[simp] theorem pause_input (c : PauseCause) (s : State) : (pause c s).input = s.input := rfl
@[simp] theorem pause_breakEn (c : PauseCause) (s : State) : (pause c s).breakEn = s.breakEn := rfl
@[simp] theorem pause_breakAddr (c : PauseCause) (s : State) : (pause c s).breakAddr = s.breakAddr := rfl
@[simp] theorem pause_force (c : PauseCause) (s : State) : (pause c s).force = s.force := rfl
@[simp] theorem pause_pending (c : PauseCause) (s : State) : (pause c s).pending = s.pending := rfl
@[simp] theorem pause_cfg (c : PauseCause) (s : State) : (pause c s).cfg = s.cfg := rfl

/-! ### takeFault -/

@[simp] theorem takeFault_regs (e : Raised) (s : State) : (takeFault e s).regs = s.regs := rfl
@[simp] theorem takeFault_pc (e : Raised) (s : State) : (takeFault e s).pc = s.pc := rfl
@[simp] theorem takeFault_mem (e : Raised) (s : State) : (takeFault e s).mem = s.mem := rfl
@[simp] theorem takeFault_stack (e : Raised) (s : State) : (takeFault e s).stack = s.stack := rfl
@[simp] theorem takeFault_status (e : Raised) (s : State) : (takeFault e s).status = ⟨.faulted, s.status.pauseCause, e.code, e.value, s.pc⟩ := rfl
@[simp] theorem takeFault_output (e : Raised) (s : State) : (takeFault e s).output = s.output := rfl
@[simp] theorem takeFault_input (e : Raised) (s : State) : (takeFault e s).input = s.input := rfl
@[simp] theorem takeFault_breakEn (e : Raised) (s : State) : (takeFault e s).breakEn = s.breakEn := rfl
@[simp] theorem takeFault_breakAddr (e : Raised) (s : State) : (takeFault e s).breakAddr = s.breakAddr := rfl
@[simp] theorem takeFault_force (e : Raised) (s : State) : (takeFault e s).force = s.force := rfl
@[simp] theorem takeFault_pending (e : Raised) (s : State) : (takeFault e s).pending = s.pending := rfl
@[simp] theorem takeFault_cfg (e : Raised) (s : State) : (takeFault e s).cfg = s.cfg := rfl

/-! ### startRun -/

@[simp] theorem startRun_regs (s : State) : (startRun s).regs = s.regs := rfl
@[simp] theorem startRun_pc (s : State) : (startRun s).pc = s.pc := rfl
@[simp] theorem startRun_mem (s : State) : (startRun s).mem = s.mem := rfl
@[simp] theorem startRun_stack (s : State) : (startRun s).stack = s.stack := rfl
@[simp] theorem startRun_status (s : State) : (startRun s).status = { s.status with state := .running, pauseCause := .none } := rfl
@[simp] theorem startRun_output (s : State) : (startRun s).output = s.output := rfl
@[simp] theorem startRun_input (s : State) : (startRun s).input = s.input := rfl
@[simp] theorem startRun_breakEn (s : State) : (startRun s).breakEn = s.breakEn := rfl
@[simp] theorem startRun_breakAddr (s : State) : (startRun s).breakAddr = s.breakAddr := rfl
@[simp] theorem startRun_force (s : State) : (startRun s).force = true := rfl
@[simp] theorem startRun_pending (s : State) : (startRun s).pending = s.pending := rfl
@[simp] theorem startRun_cfg (s : State) : (startRun s).cfg = s.cfg := rfl

end Sys2Proof.Machine
end

