-- ==== Sys2Proof/Laws/Operands.lean ====
section
/-! SUPPORT. Everything the resolver and the raising of faults can do (40_step_and_operands.md R94, R100 to R102), one
lemma for each answer. -/

namespace Sys2Proof.Machine

/-! ### Going on or raising -/

@[simp] theorem orRaise_ok {α : Type} (s : State) (v : α) (k : α → Result) : orRaise s (.ok v) k = k v := rfl

@[simp] theorem orRaise_error {α : Type} (s : State) (e : Raised) (k : α → Result) :
    orRaise s (.error e) k = .next (takeFault e s) := rfl

/-- A check that answers goes on with its value or takes the fault it raises. -/
theorem orRaise_cases {α : Type} (s : State) (x : Except Raised α) (k : α → Result) :
    (∃ e, x = .error e ∧ orRaise s x k = .next (takeFault e s)) ∨ (∃ v, x = .ok v ∧ orRaise s x k = k v) := by
  cases x with
  | error e => exact .inl ⟨e, rfl, rfl⟩
  | ok v => exact .inr ⟨v, rfl, rfl⟩

/-! ### The next instruction's address (R96) -/

theorem nextPc_zero (s : State) : nextPc 0 s = s.pc + 1 := by simp only [nextPc, BitVec.add_assoc]; rfl
theorem nextPc_one (s : State) : nextPc 1 s = s.pc + 2 := by simp only [nextPc, BitVec.add_assoc]; rfl
theorem nextPc_two (s : State) : nextPc 2 s = s.pc + 3 := by simp only [nextPc, BitVec.add_assoc]; rfl
theorem nextPc_three (s : State) : nextPc 3 s = s.pc + 4 := by simp only [nextPc, BitVec.add_assoc]; rfl

/-! ### The stack's capacity (R9, R29) -/

/-- The stack is full exactly when STACK_DEPTH is bounded by its length. -/
theorem stackFull_iff (s : State) : stackFull s = true ↔ ∃ n, s.cfg.stackDepth = some n ∧ n ≤ s.stack.length := by
  unfold stackFull
  split
  · next h => simp [h]
  · next n h => simp [h]

/-! ### Resolving and classifying -/

@[simp] theorem resolve_literal (s : State) (v : BitVec 15) : resolve s (.literal v) = .ok (v.setWidth 16) := rfl

@[simp] theorem resolve_register (s : State) (i : Fin 8) : resolve s (.register i) = .ok (readReg s i) := rfl

@[simp] theorem resolve_invalid (s : State) (w : Word) : resolve s (.invalid w) = .error ⟨.invalidAddress, w⟩ := rfl

@[simp] theorem dest_literal (v : BitVec 15) : dest (.literal v) = .ok (.mem v.toNat) := rfl

@[simp] theorem dest_register (i : Fin 8) : dest (.register i) = .ok (.reg i) := rfl

@[simp] theorem dest_invalid (w : Word) : dest (.invalid w) = .error ⟨.invalidAddress, w⟩ := rfl

/-- A location a destination names is a register or a memory word inside memory (R101). -/
theorem dest_ok {a : Operand} {d : Loc} (h : dest a = .ok d) :
    (∃ i, a = .register i ∧ d = .reg i) ∨ (∃ v, a = .literal v ∧ d = .mem v.toNat ∧ v.toNat < Config.memWords) := by
  cases a with
  | literal v => simp only [dest_literal, Except.ok.injEq] at h; exact .inr ⟨v, rfl, h.symm, v.isLt⟩
  | register i => simp only [dest_register, Except.ok.injEq] at h; exact .inl ⟨i, rfl, h.symm⟩
  | invalid w => simp at h

/-- What resolving raises is InvalidAddress. -/
theorem resolve_error {s : State} {o : Operand} {e : Raised} (h : resolve s o = .error e) :
    e.code = .invalidAddress := by
  cases o with
  | literal v => simp at h
  | register i => simp at h
  | invalid w => simp only [resolve_invalid, Except.error.injEq] at h; rw [← h]

/-- What classifying a destination raises is InvalidAddress. -/
theorem dest_error {o : Operand} {e : Raised} (h : dest o = .error e) : e.code = .invalidAddress := by
  cases o with
  | literal v => simp at h
  | register i => simp at h
  | invalid w => simp only [dest_invalid, Except.error.injEq] at h; rw [← h]

/-- A memory index inside memory is the value itself (R127). -/
theorem memIndex_ok {v : Word} {a : Nat} (h : memIndex v = .ok a) : a = v.toNat ∧ v.toNat < Config.memWords := by
  unfold memIndex at h
  split at h
  · next hv => exact ⟨by simpa using h.symm, hv⟩
  · cases h

/-- A memory index beyond memory raises InvalidAddress with the value (R127). -/
theorem memIndex_error {v : Word} {e : Raised} (h : memIndex v = .error e) :
    e = ⟨.invalidAddress, v⟩ ∧ Config.memWords ≤ v.toNat := by
  unfold memIndex at h
  split at h
  · cases h
  · next hv => exact ⟨by simpa [invalidAddress] using h.symm, Nat.le_of_not_lt hv⟩

/-! ### Registers -/

/-- Reading a register just written gives the value written (R23). -/
@[simp] theorem readReg_writeReg_same (i : Fin 8) (v : Word) (s : State) : readReg (writeReg i v s) i = v := by
  simp [readReg, writeReg]

/-- A register write leaves every other register alone. -/
theorem readReg_writeReg_ne {i j : Fin 8} (v : Word) (s : State) (h : j ≠ i) :
    readReg (writeReg i v s) j = readReg s j := by
  have h' : i.val ≠ j.val := fun e => h (Fin.ext e.symm)
  simp [readReg, writeReg, h']

/-! ### Writing a location: every other field as before -/

@[simp] theorem writeLoc_pc (d : Loc) (v : Word) (s : State) : (writeLoc d v s).pc = s.pc := by cases d <;> rfl
@[simp] theorem writeLoc_stack (d : Loc) (v : Word) (s : State) : (writeLoc d v s).stack = s.stack := by
  cases d <;> rfl
@[simp] theorem writeLoc_status (d : Loc) (v : Word) (s : State) : (writeLoc d v s).status = s.status := by
  cases d <;> rfl
@[simp] theorem writeLoc_output (d : Loc) (v : Word) (s : State) : (writeLoc d v s).output = s.output := by
  cases d <;> rfl
@[simp] theorem writeLoc_input (d : Loc) (v : Word) (s : State) : (writeLoc d v s).input = s.input := by
  cases d <;> rfl
@[simp] theorem writeLoc_breakEn (d : Loc) (v : Word) (s : State) : (writeLoc d v s).breakEn = s.breakEn := by
  cases d <;> rfl
@[simp] theorem writeLoc_breakAddr (d : Loc) (v : Word) (s : State) :
    (writeLoc d v s).breakAddr = s.breakAddr := by cases d <;> rfl
@[simp] theorem writeLoc_force (d : Loc) (v : Word) (s : State) : (writeLoc d v s).force = s.force := by
  cases d <;> rfl
@[simp] theorem writeLoc_pending (d : Loc) (v : Word) (s : State) : (writeLoc d v s).pending = s.pending := by
  cases d <;> rfl
@[simp] theorem writeLoc_cfg (d : Loc) (v : Word) (s : State) : (writeLoc d v s).cfg = s.cfg := by cases d <;> rfl
@[simp] theorem writeLoc_reg (i : Fin 8) (v : Word) (s : State) : writeLoc (.reg i) v s = writeReg i v s := rfl
@[simp] theorem writeLoc_mem (a : Nat) (v : Word) (s : State) : writeLoc (.mem a) v s = writeMem a v s := rfl

/-- Writing a location that a destination names keeps memory canonical. -/
theorem writeLoc_wf {s : State} (h : Memory.wf s.mem) {a : Operand} {d : Loc} (hd : dest a = .ok d) (v : Word) :
    Memory.wf (writeLoc d v s).mem := by
  rcases dest_ok hd with ⟨i, -, rfl⟩ | ⟨w, -, rfl, hw⟩
  · exact h
  · exact writeWord_wf h v hw

end Sys2Proof.Machine
end

