-- ==== Sys2Proof/Laws/Exec.lean ====
section
/-! SUPPORT. Everything an executed instruction can do, said once: it takes a fault, it pauses for input, or it has one of
the effects below. Statements over all instructions go through `exec_cases` and unfold no meaning. -/

namespace Sys2Proof.Machine

/-- The committed effects of the instructions (40_step_and_operands.md R95, R107): what `exec i s` answers when it neither
raises nor pauses. `write` covers every instruction whose only effects are its D operand and the pc. -/
inductive Effect (s : State) : Instr → State → Prop
  | write {i : Instr} {a : Operand} {d : Loc} (v : Word) (n : Nat) (hi : dstOperand i = some a) (hd : dest a = .ok d)
      (hp : ∀ b, i ≠ .pop b) (hn : ∀ b, i ≠ .inp b) : Effect s i (advance n (writeLoc d v s))
  | pop {a : Operand} {d : Loc} {v : Word} {rest : List Word} (hd : dest a = .ok d) (hs : s.stack = v :: rest) :
      Effect s (.pop a) (advance 1 (writeLoc d v (setStack rest s)))
  | inp {a : Operand} {d : Loc} {v : Word} {rest : List Word} (hd : dest a = .ok d) (hs : s.input = v :: rest) :
      Effect s (.inp a) (advance 1 (writeLoc d v (setInput rest s)))
  | wmem {a b : Operand} {va v : Word} (ha : resolve s a = .ok va) (hb : resolve s b = .ok v)
      (hlt : va.toNat < Config.memWords) : Effect s (.wmem a b) (advance 2 (writeMem va.toNat v s))
  | push {a : Operand} {v : Word} (ha : resolve s a = .ok v) (hf : stackFull s = false) :
      Effect s (.push a) (advance 1 (stackPush v s))
  | call {a : Operand} {t : Word} (ha : resolve s a = .ok t) (hf : stackFull s = false) :
      Effect s (.call a) (setPc t (stackPush (nextPc 1 s) s))
  | ret {t : Word} {rest : List Word} (hs : s.stack = t :: rest) : Effect s .ret (setPc t (setStack rest s))
  | retHalt (hs : s.stack = []) : Effect s .ret (haltMachine (advance 0 s))
  | halt : Effect s .halt (haltMachine (advance 0 s))
  | jmp {a : Operand} {t : Word} (ha : resolve s a = .ok t) : Effect s (.jmp a) (setPc t s)
  | jt {a b : Operand} {v t : Word} (ha : resolve s a = .ok v) (hb : resolve s b = .ok t) :
      Effect s (.jt a b) (if isNonzero v then setPc t s else advance 2 s)
  | jf {a b : Operand} {v t : Word} (ha : resolve s a = .ok v) (hb : resolve s b = .ok t) :
      Effect s (.jf a b) (if isNonzero v then advance 2 s else setPc t s)
  | out {a : Operand} {v : Word} (ha : resolve s a = .ok v) : Effect s (.out a) (advance 1 (emit (lowByte v) s))
  | noop : Effect s .noop (advance 0 s)

/-- `r` is a fault taken in s, with a real fault code. -/
def Faults (s : State) (r : Result) : Prop := ∃ e : Raised, e.code ≠ .none ∧ r = .next (takeFault e s)

theorem faults_dest {s : State} {a : Operand} {e : Raised} (h : dest a = .error e) :
    Faults s (.next (takeFault e s)) := ⟨e, by rw [dest_error h]; decide, rfl⟩

theorem faults_resolve {s : State} {a : Operand} {e : Raised} (h : resolve s a = .error e) :
    Faults s (.next (takeFault e s)) := ⟨e, by rw [resolve_error h]; decide, rfl⟩

/-- Everything the common shape of the F3 instructions can do: it faults, or it writes the operation's value to the
destination and advances. -/
theorem binaryAlu_cases (op : Word → Word → Except Raised Word) (hop : ∀ x y e, op x y = .error e → e.code ≠ .none)
    (a b c : Operand) (s : State) :
    Faults s (binaryAlu op a b c s) ∨
    ∃ d v1 v2 v, dest a = .ok d ∧ resolve s b = .ok v1 ∧ resolve s c = .ok v2 ∧ op v1 v2 = .ok v ∧
      binaryAlu op a b c s = .next (advance 3 (writeLoc d v s)) := by
  unfold binaryAlu
  rcases orRaise_cases s (dest a) _ with ⟨e, he, h⟩ | ⟨d, hd, h⟩ <;> rw [h]
  · exact .inl (faults_dest he)
  rcases orRaise_cases s (resolve s b) _ with ⟨e, he, h⟩ | ⟨v1, h1, h⟩ <;> rw [h]
  · exact .inl (faults_resolve he)
  rcases orRaise_cases s (resolve s c) _ with ⟨e, he, h⟩ | ⟨v2, h2, h⟩ <;> rw [h]
  · exact .inl (faults_resolve he)
  rcases orRaise_cases s (op v1 v2) _ with ⟨e, he, h⟩ | ⟨v, hv, h⟩ <;> rw [h]
  · exact .inl ⟨e, hop _ _ _ he, rfl⟩
  · exact .inr ⟨d, v1, v2, v, hd, h1, h2, hv, rfl⟩

theorem aluMod_error {x y : Word} {e : Raised} (h : aluMod x y = .error e) : e = ⟨.divideByZero, 0⟩ ∧ y = 0 := by
  unfold aluMod at h
  split at h
  · next hy => exact ⟨by simpa using h.symm, hy⟩
  · cases h

/-- The answer of an instruction: a fault taken, a pause for input, or its effect. -/
def Answers (i : Instr) (s : State) (r : Result) : Prop :=
  Faults s r ∨
  (∃ a, i = .inp a ∧ s.input = [] ∧ r = .next (pause .input s)) ∨
  (∃ t, r = .next t ∧ Effect s i t)

/-- The F3 instructions: a fault, or the D operand written. -/
theorem binaryAlu_answers (op : Word → Word → Except Raised Word) (hop : ∀ x y e, op x y = .error e → e.code ≠ .none)
    {i : Instr} {a b c : Operand} {s : State} (hi : dstOperand i = some a) (hp : ∀ b, i ≠ .pop b)
    (hn : ∀ b, i ≠ .inp b) : Answers i s (binaryAlu op a b c s) := by
  rcases binaryAlu_cases op hop a b c s with h | ⟨d, v1, v2, v, hd, -, -, -, h⟩
  · exact .inl h
  · exact .inr (.inr ⟨_, h, .write v 3 hi hd hp hn⟩)

theorem execSet_answers (a b : Operand) (s : State) : Answers (.set a b) s (execSet a b s) := by
  unfold execSet
  rcases orRaise_cases s (dest a) _ with ⟨e, he, h⟩ | ⟨d, hd, h⟩ <;> rw [h]
  · exact .inl (faults_dest he)
  rcases orRaise_cases s (resolve s b) _ with ⟨e, he, h⟩ | ⟨v, hv, h⟩ <;> rw [h]
  · exact .inl (faults_resolve he)
  · exact .inr (.inr ⟨_, rfl, .write v 2 rfl hd (by simp) (by simp)⟩)

theorem execNot_answers (a b : Operand) (s : State) : Answers (.not a b) s (execNot a b s) := by
  unfold execNot
  rcases orRaise_cases s (dest a) _ with ⟨e, he, h⟩ | ⟨d, hd, h⟩ <;> rw [h]
  · exact .inl (faults_dest he)
  rcases orRaise_cases s (resolve s b) _ with ⟨e, he, h⟩ | ⟨v, hv, h⟩ <;> rw [h]
  · exact .inl (faults_resolve he)
  · exact .inr (.inr ⟨_, rfl, .write (aluNot v) 2 rfl hd (by simp) (by simp)⟩)

theorem execRmem_answers (a b : Operand) (s : State) : Answers (.rmem a b) s (execRmem a b s) := by
  unfold execRmem
  rcases orRaise_cases s (dest a) _ with ⟨e, he, h⟩ | ⟨d, hd, h⟩ <;> rw [h]
  · exact .inl (faults_dest he)
  rcases orRaise_cases s (resolve s b) _ with ⟨e, he, h⟩ | ⟨v, hv, h⟩ <;> rw [h]
  · exact .inl (faults_resolve he)
  rcases orRaise_cases s (memIndex v) _ with ⟨e, he, h⟩ | ⟨x, hx, h⟩ <;> rw [h]
  · exact .inl ⟨e, by rw [(memIndex_error he).1]; simp, rfl⟩
  · exact .inr (.inr ⟨_, rfl, .write _ 2 rfl hd (by simp) (by simp)⟩)

theorem execWmem_answers (a b : Operand) (s : State) : Answers (.wmem a b) s (execWmem a b s) := by
  unfold execWmem
  rcases orRaise_cases s (resolve s a) _ with ⟨e, he, h⟩ | ⟨va, ha, h⟩ <;> rw [h]
  · exact .inl (faults_resolve he)
  rcases orRaise_cases s (resolve s b) _ with ⟨e, he, h⟩ | ⟨v, hv, h⟩ <;> rw [h]
  · exact .inl (faults_resolve he)
  rcases orRaise_cases s (memIndex va) _ with ⟨e, he, h⟩ | ⟨x, hx, h⟩ <;> rw [h]
  · exact .inl ⟨e, by rw [(memIndex_error he).1]; simp, rfl⟩
  · obtain ⟨rfl, hlt⟩ := memIndex_ok hx
    exact .inr (.inr ⟨_, rfl, .wmem ha hv hlt⟩)

theorem execPush_answers (a : Operand) (s : State) : Answers (.push a) s (execPush a s) := by
  unfold execPush
  rcases orRaise_cases s (resolve s a) _ with ⟨e, he, h⟩ | ⟨v, hv, h⟩ <;> rw [h]
  · exact .inl (faults_resolve he)
  cases hf : stackFull s
  · exact .inr (.inr ⟨_, rfl, .push hv hf⟩)
  · exact .inl ⟨_, by simp, rfl⟩

theorem execPop_answers (a : Operand) (s : State) : Answers (.pop a) s (execPop a s) := by
  unfold execPop
  rcases orRaise_cases s (dest a) _ with ⟨e, he, h⟩ | ⟨d, hd, h⟩ <;> rw [h]
  · exact .inl (faults_dest he)
  split
  · exact .inl ⟨_, by simp, rfl⟩
  · next hs => exact .inr (.inr ⟨_, rfl, .pop hd hs⟩)

theorem execIn_answers (a : Operand) (s : State) : Answers (.inp a) s (execIn a s) := by
  unfold execIn
  rcases orRaise_cases s (dest a) _ with ⟨e, he, h⟩ | ⟨d, hd, h⟩ <;> rw [h]
  · exact .inl (faults_dest he)
  split
  · next hs => exact .inr (.inl ⟨a, rfl, hs, rfl⟩)
  · next hs => exact .inr (.inr ⟨_, rfl, .inp hd hs⟩)

theorem execOut_answers (a : Operand) (s : State) : Answers (.out a) s (execOut a s) := by
  unfold execOut
  rcases orRaise_cases s (resolve s a) _ with ⟨e, he, h⟩ | ⟨v, hv, h⟩ <;> rw [h]
  · exact .inl (faults_resolve he)
  · exact .inr (.inr ⟨_, rfl, .out hv⟩)

theorem execJmp_answers (a : Operand) (s : State) : Answers (.jmp a) s (execJmp a s) := by
  unfold execJmp
  rcases orRaise_cases s (resolve s a) _ with ⟨e, he, h⟩ | ⟨t, ht, h⟩ <;> rw [h]
  · exact .inl (faults_resolve he)
  · exact .inr (.inr ⟨_, rfl, .jmp ht⟩)

theorem execJt_answers (a b : Operand) (s : State) : Answers (.jt a b) s (execJt a b s) := by
  unfold execJt
  rcases orRaise_cases s (resolve s a) _ with ⟨e, he, h⟩ | ⟨v, hv, h⟩ <;> rw [h]
  · exact .inl (faults_resolve he)
  rcases orRaise_cases s (resolve s b) _ with ⟨e, he, h⟩ | ⟨t, ht, h⟩ <;> rw [h]
  · exact .inl (faults_resolve he)
  · exact .inr (.inr ⟨_, by split <;> rfl, .jt hv ht⟩)

theorem execJf_answers (a b : Operand) (s : State) : Answers (.jf a b) s (execJf a b s) := by
  unfold execJf
  rcases orRaise_cases s (resolve s a) _ with ⟨e, he, h⟩ | ⟨v, hv, h⟩ <;> rw [h]
  · exact .inl (faults_resolve he)
  rcases orRaise_cases s (resolve s b) _ with ⟨e, he, h⟩ | ⟨t, ht, h⟩ <;> rw [h]
  · exact .inl (faults_resolve he)
  · exact .inr (.inr ⟨_, by split <;> rfl, .jf hv ht⟩)

theorem execCall_answers (a : Operand) (s : State) : Answers (.call a) s (execCall a s) := by
  unfold execCall
  rcases orRaise_cases s (resolve s a) _ with ⟨e, he, h⟩ | ⟨t, ht, h⟩ <;> rw [h]
  · exact .inl (faults_resolve he)
  cases hf : stackFull s
  · exact .inr (.inr ⟨_, rfl, .call ht hf⟩)
  · exact .inl ⟨_, by simp, rfl⟩

theorem execRet_answers (s : State) : Answers .ret s (execRet s) := by
  unfold execRet
  split
  · next hs => exact .inr (.inr ⟨_, rfl, .retHalt hs⟩)
  · next hs => exact .inr (.inr ⟨_, rfl, .ret hs⟩)

/-- Everything an executed instruction can do. -/
theorem exec_cases (i : Instr) (s : State) : Answers i s (exec i s) := by
  have pure : ∀ (f : Word → Word → Word) (x y : Word) (e : Raised),
      (Except.ok (f x y) : Except Raised Word) = .error e → e.code ≠ .none := by intro f x y e h; cases h
  cases i with
  | halt => exact .inr (.inr ⟨_, rfl, .halt⟩)
  | set a b => exact execSet_answers a b s
  | push a => exact execPush_answers a s
  | pop a => exact execPop_answers a s
  | eq a b c => exact binaryAlu_answers _ (pure aluEq) rfl (by simp) (by simp)
  | gt a b c => exact binaryAlu_answers _ (pure aluGt) rfl (by simp) (by simp)
  | jmp a => exact execJmp_answers a s
  | jt a b => exact execJt_answers a b s
  | jf a b => exact execJf_answers a b s
  | add a b c => exact binaryAlu_answers _ (pure aluAdd) rfl (by simp) (by simp)
  | mult a b c => exact binaryAlu_answers _ (pure aluMult) rfl (by simp) (by simp)
  | mod a b c =>
    exact binaryAlu_answers _ (fun x y e h => by rw [(aluMod_error h).1]; decide) rfl (by simp) (by simp)
  | and a b c => exact binaryAlu_answers _ (pure aluAnd) rfl (by simp) (by simp)
  | or a b c => exact binaryAlu_answers _ (pure aluOr) rfl (by simp) (by simp)
  | not a b => exact execNot_answers a b s
  | rmem a b => exact execRmem_answers a b s
  | wmem a b => exact execWmem_answers a b s
  | call a => exact execCall_answers a s
  | ret => exact execRet_answers s
  | out a => exact execOut_answers a s
  | inp a => exact execIn_answers a s
  | noop => exact .inr (.inr ⟨_, rfl, .noop⟩)

end Sys2Proof.Machine
end

