-- ==== Sys2Proof/Laws/PerInstr.lean ====
section
/-! SUPPORT. Statements made per instruction, about the instruction as syntax. Family EncodeShape (30_encoding.md R70,
R73, R79): an encoding is as long as the instruction's length says, at most four words, as many roles as operands, its
first word an opcode of the table, which alone gives the length. -/

namespace Sys2Proof.Laws.EncodeShape

/-- The shape of an instruction's encoding. -/
def Statement (i : Instr) : Prop :=
  (encode i).length = i.length ∧ i.length ≤ 4 ∧ i.roles.length = i.operands.length ∧
    (encode i).head? = some i.opcode ∧ i.opcode.toNat ≤ 21

theorem halt : Statement .halt := by simp [Statement, encode, Instr.length, Instr.operands, Instr.roles, Instr.opcode]
theorem set (a b : Operand) : Statement (.set a b) := by
  simp [Statement, encode, Instr.length, Instr.operands, Instr.roles, Instr.opcode]
theorem push (a : Operand) : Statement (.push a) := by
  simp [Statement, encode, Instr.length, Instr.operands, Instr.roles, Instr.opcode]
theorem pop (a : Operand) : Statement (.pop a) := by
  simp [Statement, encode, Instr.length, Instr.operands, Instr.roles, Instr.opcode]
theorem eq (a b c : Operand) : Statement (.eq a b c) := by
  simp [Statement, encode, Instr.length, Instr.operands, Instr.roles, Instr.opcode]
theorem gt (a b c : Operand) : Statement (.gt a b c) := by
  simp [Statement, encode, Instr.length, Instr.operands, Instr.roles, Instr.opcode]
theorem jmp (a : Operand) : Statement (.jmp a) := by
  simp [Statement, encode, Instr.length, Instr.operands, Instr.roles, Instr.opcode]
theorem jt (a b : Operand) : Statement (.jt a b) := by
  simp [Statement, encode, Instr.length, Instr.operands, Instr.roles, Instr.opcode]
theorem jf (a b : Operand) : Statement (.jf a b) := by
  simp [Statement, encode, Instr.length, Instr.operands, Instr.roles, Instr.opcode]
theorem add (a b c : Operand) : Statement (.add a b c) := by
  simp [Statement, encode, Instr.length, Instr.operands, Instr.roles, Instr.opcode]
theorem mult (a b c : Operand) : Statement (.mult a b c) := by
  simp [Statement, encode, Instr.length, Instr.operands, Instr.roles, Instr.opcode]
theorem mod (a b c : Operand) : Statement (.mod a b c) := by
  simp [Statement, encode, Instr.length, Instr.operands, Instr.roles, Instr.opcode]
theorem and (a b c : Operand) : Statement (.and a b c) := by
  simp [Statement, encode, Instr.length, Instr.operands, Instr.roles, Instr.opcode]
theorem or (a b c : Operand) : Statement (.or a b c) := by
  simp [Statement, encode, Instr.length, Instr.operands, Instr.roles, Instr.opcode]
theorem not (a b : Operand) : Statement (.not a b) := by
  simp [Statement, encode, Instr.length, Instr.operands, Instr.roles, Instr.opcode]
theorem rmem (a b : Operand) : Statement (.rmem a b) := by
  simp [Statement, encode, Instr.length, Instr.operands, Instr.roles, Instr.opcode]
theorem wmem (a b : Operand) : Statement (.wmem a b) := by
  simp [Statement, encode, Instr.length, Instr.operands, Instr.roles, Instr.opcode]
theorem call (a : Operand) : Statement (.call a) := by
  simp [Statement, encode, Instr.length, Instr.operands, Instr.roles, Instr.opcode]
theorem ret : Statement .ret := by
  simp [Statement, encode, Instr.length, Instr.operands, Instr.roles, Instr.opcode]
theorem out (a : Operand) : Statement (.out a) := by
  simp [Statement, encode, Instr.length, Instr.operands, Instr.roles, Instr.opcode]
theorem inp (a : Operand) : Statement (.inp a) := by
  simp [Statement, encode, Instr.length, Instr.operands, Instr.roles, Instr.opcode]
theorem noop : Statement .noop := by
  simp [Statement, encode, Instr.length, Instr.operands, Instr.roles, Instr.opcode]

end Sys2Proof.Laws.EncodeShape
end

