-- ==== Sys2Proof/Laws/Step.lean ====
section
/-! SUPPORT. What the step is made of, one lemma for each part: the words a fetch reads, the block's turn, the host's
turn. -/

namespace Sys2Proof.Machine

/-! ### The words a fetch reads -/

/-- The word k places after p, where it is below the end and among the first four. -/
theorem wordsFrom_getElem? (m : Memory) (stop p : Nat) {k : Nat} (hk : k < 4) :
    (wordsFrom m stop p)[k]? = if p + k < stop then some (readWord m (p + k)) else none := by
  unfold wordsFrom
  obtain h0 | h0 := Nat.lt_or_ge p stop <;> obtain h1 | h1 := Nat.lt_or_ge (p + 1) stop <;>
    obtain h2 | h2 := Nat.lt_or_ge (p + 2) stop <;> obtain h3 | h3 := Nat.lt_or_ge (p + 3) stop <;>
    first
    | omega
    | (obtain rfl | rfl | rfl | rfl : k = 0 ∨ k = 1 ∨ k = 2 ∨ k = 3 := by omega
       all_goals simp [h0, h1, h2, h3, Nat.not_lt.2])

/-- As many words as there are before the end, at most four. -/
theorem wordsFrom_length (m : Memory) (stop p : Nat) : (wordsFrom m stop p).length = min 4 (stop - p) := by
  have hle : (wordsFrom m stop p).length ≤ 4 := by
    unfold wordsFrom
    rw [List.length_map]
    exact le_trans (List.takeWhile_sublist _).length_le (by simp)
  rcases Nat.lt_trichotomy (wordsFrom m stop p).length (min 4 (stop - p)) with h | h | h
  · have hk := wordsFrom_getElem? m stop p (k := (wordsFrom m stop p).length) (by omega)
    rw [if_pos (by omega)] at hk
    simp at hk
  · exact h
  · have hk := wordsFrom_getElem? m stop p (k := stop - p) (by omega)
    rw [if_neg (by omega), List.getElem?_eq_none_iff] at hk
    omega

/-- The first word read is the one at p. -/
theorem wordsFrom_cons {m : Memory} {stop p : Nat} (h : p < stop) :
    ∃ rest, wordsFrom m stop p = readWord m p :: rest := by
  have h0 := wordsFrom_getElem? m stop p (k := 0) (by omega)
  cases hw : wordsFrom m stop p with
  | nil => simp [hw, h] at h0
  | cons a rest => simp [hw, h] at h0; exact ⟨rest, by rw [h0]⟩

/-! ### The block's turn -/

/-- An instruction always has a next state. -/
theorem exec_next (i : Instr) (s : State) : ∃ t, exec i s = .next t := by
  rcases exec_cases i s with ⟨e, -, h⟩ | ⟨a, -, -, h⟩ | ⟨t, h, -⟩ <;> exact ⟨_, h⟩

/-- What the fetch raises is a real fault. -/
theorem fetch_error {s : State} {e : Raised} (h : fetch s = .error e) : e.code ≠ .none := by
  unfold fetch at h
  split at h
  · split at h
    · cases h
    · next d _ =>
      injection h with h
      subst h
      cases d <;> simp [DecodeError.raised, invalidAddress]
  · injection h with h
    subst h
    simp [invalidAddress]

/-- Everything the instruction at pc can do: the fetch faults, or the fetched instruction is executed. -/
theorem executeAtPc_cases (s : State) :
    (∃ e, fetch s = .error e ∧ e.code ≠ .none ∧ executeAtPc s = .next (takeFault e s)) ∨
    (∃ i t, fetch s = .ok i ∧ exec i s = .next t ∧ executeAtPc s = .next t) := by
  unfold executeAtPc
  cases hf : fetch s with
  | error e => exact .inl ⟨e, rfl, fetch_error hf, rfl⟩
  | ok i =>
    obtain ⟨t, ht⟩ := exec_next i s
    exact .inr ⟨i, t, rfl, ht, ht⟩

/-- The instruction at pc always has a next state. -/
theorem executeAtPc_next (s : State) : ∃ t, executeAtPc s = .next t := by
  rcases executeAtPc_cases s with ⟨e, -, -, h⟩ | ⟨i, t, -, -, h⟩ <;> exact ⟨_, h⟩

theorem breakpointHit_iff (s : State) :
    breakpointHit s = true ↔ s.force = false ∧ s.breakEn = true ∧ s.pc = s.breakAddr := by
  simp [breakpointHit, and_assoc]

/-- A running block that no breakpoint holds executes the instruction at pc. -/
theorem blockStep_running {s : State} (h : s.status.state = .running)
    (hb : ¬ (s.force = false ∧ s.breakEn = true ∧ s.pc = s.breakAddr)) :
    blockStep s = clearForce (executeAtPc s) := by
  have hb' : breakpointHit s = false := by rw [← Bool.not_eq_true, breakpointHit_iff]; exact hb
  simp [blockStep, h, hb']

/-- A running block that a breakpoint holds pauses. -/
theorem blockStep_breakpoint {s : State} (h : s.status.state = .running)
    (hb : s.force = false ∧ s.breakEn = true ∧ s.pc = s.breakAddr) :
    blockStep s = .next (pause .breakpoint s) := by
  simp [blockStep, h, (breakpointHit_iff s).2 hb]

/-! ### The host's turn -/

/-- With nothing pending from the host the step is the block's. -/
theorem step_pending_nil {s : State} (h : s.pending = []) : step s = blockStep s := by
  simp [step, dueCommand, tick, h]

/-- The passing of a step changes nothing but what is pending. -/
theorem tick_eq (s : State) : ∃ plan, tick s = { s with pending := plan } := by
  unfold tick
  split
  · exact ⟨s.pending, rfl⟩
  · exact ⟨_, rfl⟩

/-- What a fetch reads is not what is pending. -/
@[simp] theorem fetch_tick (s : State) : fetch (tick s) = fetch s := by
  obtain ⟨plan, h⟩ := tick_eq s
  rw [h]
  rfl

/-- A command that is due is given. -/
theorem step_due {s : State} {n : Nat} {c : HostCmd} {rest : List HostAction} (hp : s.pending = ⟨n, c⟩ :: rest)
    (h : n = 0 ∨ s.status.state ≠ .running) : step s = hostCommand c { s with pending := rest } := by
  simp only [step, dueCommand, hp, if_pos h]

/-- A due command is taken from the head of what is pending, and nothing else of the state is touched. -/
theorem dueCommand_some {s s' : State} {c : HostCmd} (h : dueCommand s = some (c, s')) :
    ∃ n rest, s.pending = ⟨n, c⟩ :: rest ∧ s' = { s with pending := rest } := by
  unfold dueCommand at h
  split at h
  · cases h
  · next a rest hp =>
    split at h
    · injection h with h
      injection h with hc hs
      subst hc
      exact ⟨a.after, rest, hp, hs.symm⟩
    · cases h

end Sys2Proof.Machine
end

