-- ==== Sys2Proof/Tests/Slice0.lean ====
section
/-! SUPPORT. Small tests, each about one decoding or one step, their expected results taken from the spec's own worked
examples and vectors (the tables of 95_test_vectors.md, the examples of the rules), and the witnesses: for each statement
with hypotheses, a concrete state and operands that meet them. -/

namespace Sys2Proof.Tests

open Sys2Proof.Machine Sys2Proof.Claims

/-! ### WellFormed: an ill-formed term for its one check -/

theorem test_wf_refuses_a_literal_as_invalid : (Operand.invalid 32767).wf = false := by decide
theorem test_wf_refuses_a_token_as_invalid : (Instr.add (.literal 1) (.invalid 32775) (.literal 2)).wf = false := by
  decide
theorem test_wf_accepts_the_first_invalid_word : (Instr.set (.invalid 32776) (.literal 5)).wf = true := by decide

/-! ### Decoding: one word list per constructor, written from R73 and the rules' examples -/

theorem test_decode_halt : decodeWords [0] = .ok (.halt, []) := rfl
theorem test_decode_set : decodeWords [1, 32769, 42] = .ok (.set (.register 1) (.literal 42), []) := rfl
theorem test_decode_push : decodeWords [2, 7] = .ok (.push (.literal 7), []) := rfl
theorem test_decode_pop : decodeWords [3, 32771] = .ok (.pop (.register 3), []) := rfl
theorem test_decode_eq :
    decodeWords [4, 32769, 32768, 5] = .ok (.eq (.register 1) (.register 0) (.literal 5), []) := rfl
theorem test_decode_gt : decodeWords [5, 32770, 10, 9] = .ok (.gt (.register 2) (.literal 10) (.literal 9), []) := rfl
theorem test_decode_jmp : decodeWords [6, 10] = .ok (.jmp (.literal 10), []) := rfl
theorem test_decode_jt : decodeWords [7, 32768, 20] = .ok (.jt (.register 0) (.literal 20), []) := rfl
theorem test_decode_jf : decodeWords [8, 32769, 3] = .ok (.jf (.register 1) (.literal 3), []) := rfl
theorem test_decode_add :
    decodeWords [9, 32768, 32768, 1] = .ok (.add (.register 0) (.register 0) (.literal 1), []) := rfl
theorem test_decode_mult :
    decodeWords [10, 32769, 32768, 1000] = .ok (.mult (.register 1) (.register 0) (.literal 1000), []) := rfl
theorem test_decode_mod :
    decodeWords [11, 32775, 32774, 1000] = .ok (.mod (.register 7) (.register 6) (.literal 1000), []) := rfl
theorem test_decode_and :
    decodeWords [12, 32773, 32771, 32772] = .ok (.and (.register 5) (.register 3) (.register 4), []) := rfl
theorem test_decode_or :
    decodeWords [13, 32774, 32771, 32772] = .ok (.or (.register 6) (.register 3) (.register 4), []) := rfl
theorem test_decode_not : decodeWords [14, 32772, 32771] = .ok (.not (.register 4) (.register 3), []) := rfl
theorem test_decode_rmem : decodeWords [15, 32768, 100] = .ok (.rmem (.register 0) (.literal 100), []) := rfl
theorem test_decode_wmem : decodeWords [16, 32769, 65] = .ok (.wmem (.register 1) (.literal 65), []) := rfl
theorem test_decode_call : decodeWords [17, 10, 15] = .ok (.call (.literal 10), [15]) := rfl
theorem test_decode_ret : decodeWords [18] = .ok (.ret, []) := rfl
theorem test_decode_out : decodeWords [19, 65] = .ok (.out (.literal 65), []) := rfl
theorem test_decode_in : decodeWords [20, 32768] = .ok (.inp (.register 0), []) := rfl
theorem test_decode_noop : decodeWords [21] = .ok (.noop, []) := rfl
theorem test_decode_invalid_operands :
    decodeWords [9, 32768, 40000, 50000] = .ok (.add (.register 0) (.invalid 40000) (.invalid 50000), []) := rfl
theorem test_decode_illegal : decodeWords [22, 0] = .error (.illegalOpcode 22) := rfl
theorem test_decode_cut_off : decodeWords [9, 32768, 32768] = .error (.missingWord 3) := rfl
/-- R53: "image bytes 2k and 2k+1 form memory word k", low byte first. -/
theorem test_decode_bytes : decodeBytes [19, 0, 65, 0] = .ok (.out (.literal 65), []) := rfl
theorem test_table_word_numbering :
    decodeTableWord 64 0x0001800080000009 = some (.add (.register 0) (.register 0) (.literal 1)) := by decide
theorem test_table_word_zero_operands : decodeTableWord 16 20 = some (.inp (.literal 0)) := by decide
theorem test_asm : (Instr.add (.register 0) (.literal 5) (.invalid 40000)).asm = "add $0 5 #40000" := by decide

/-! ### One step: the conventions of 95_test_vectors.md -/

/-- A RUNNING block at pc 0 with the words at address 0 and the state changed by f. -/
def started (ws : List Word) (f : State → State) : State :=
  f { startRun { State.reset with mem := loadImage (bytesOfWords ws) } with force := false }

/-- What the test reads of the next state. -/
def after {α : Type} (r : Result) (g : State → α) : Option α :=
  match r with
  | .next t => some (g t)
  | _ => none

/-- `FAULTED code(value) @FAULT_PC`, and pc. -/
def faultOf (t : State) : RunState × FaultCode × Word × Word × Word :=
  (t.status.state, t.status.faultCode, t.status.faultValue, t.status.faultPc, t.pc)

def withReg (i : Fin 8) (v : Word) (s : State) : State := writeReg i v s
def withStack (l : List Word) (s : State) : State := { s with stack := l }
def withInput (l : List Word) (s : State) : State := { s with input := l }
def withDepth (n : Nat) (s : State) : State := { s with cfg := ⟨some n⟩ }

/-- The words stored at pc with the pc set. -/
def placed (p : Word) (ws : List Word) (s : State) : State :=
  { s with pc := p, mem := storeWords s.mem p.toNat ws }

/-- V-DM-2. -/
theorem test_set_to_memory :
    after (step (started [1, 50, 32769] (withReg 1 9))) (fun t => (readWord t.mem 50, t.pc)) = some (9, 3) := by decide
/-- W1. -/
theorem test_set_register :
    after (step (started [1, 32773, 12345] id)) (fun t => resolve t (.ofWord 32773) |>.toOption) =
      some (some 12345) := by decide
/-- V-DM-6. -/
theorem test_push : after (step (started [2, 32770] (withReg 2 40000))) (fun t => (t.stack, t.pc)) =
    some ([40000], 2) := by decide
/-- V-DM-9. -/
theorem test_push_full : after (step (started [2, 1] (fun s => withStack [9] (withDepth 1 s))))
    (fun t => (faultOf t, t.stack)) = some ((.faulted, .stackOverflow, 1, 0, 0), [9]) := by decide
/-- V-DM-10 (the top of the stack is written last in the spec's notation). -/
theorem test_pop : after (step (started [3, 32771] (withStack [12345, 5]))) (fun t => (readReg t 3, t.stack)) =
    some (12345, [5]) := by decide
/-- V-DM-8. -/
theorem test_pop_checks_operand_first : after (step (started [3, 32776] id)) faultOf =
    some (.faulted, .invalidAddress, 32776, 0, 0) := by decide
/-- V-DM-11. -/
theorem test_rmem_never_reads_a_register : after (step (started [15, 32768, 32769] (withReg 1 32769))) faultOf =
    some (.faulted, .invalidAddress, 32769, 0, 0) := by decide
/-- The example of R126. -/
theorem test_rmem : after (step (started [15, 32768, 100] (writeMem 100 42))) (fun t => (readReg t 0, t.pc)) =
    some (42, 3) := by decide
/-- V-DM-14. -/
theorem test_wmem_never_writes_a_register : after (step (started [16, 32769, 65] (withReg 1 32770)))
    (fun t => (faultOf t, readReg t 2)) = some ((.faulted, .invalidAddress, 32770, 0, 0), 0) := by decide
/-- V-DM-17. -/
theorem test_wmem_own_word : after (step (started [16, 1, 99] id)) (fun t => (readWord t.mem 1, t.pc)) =
    some (99, 3) := by decide
/-- V-ALU-3. -/
theorem test_eq : after (step (started [4, 32768, 32769, 7232] (withReg 1 40000))) (fun t => (readReg t 0, t.pc)) =
    some (0, 4) := by decide
/-- V-ALU-6. -/
theorem test_gt : after (step (started [5, 32768, 32769, 32767] (withReg 1 40000))) (fun t => readReg t 0) =
    some 1 := by decide
/-- V-ALU-4. -/
theorem test_gt_strict : after (step (started [5, 32768, 5, 5] id)) (fun t => readReg t 0) = some 0 := by decide
/-- V-ALU-12. -/
theorem test_add : after (step (started [9, 32768, 32769, 32770] (fun s => withReg 2 65535 (withReg 1 65535 s))))
    (fun t => readReg t 0) = some 32766 := by decide
/-- V-ALU-38. -/
theorem test_add_to_memory : after (step (started [9, 200, 7, 8] id)) (fun t => (readWord t.mem 200, readReg t 0)) =
    some (15, 0) := by decide
/-- V-ALU-14. -/
theorem test_mult : after (step (started [10, 32768, 32767, 32767] id)) (fun t => readReg t 0) = some 1 := by decide
/-- V-ALU-23. -/
theorem test_mod : after (step (started [11, 32768, 32769, 32770] (fun s => withReg 2 50000 (withReg 1 40000 s))))
    (fun t => readReg t 0) = some 40000 := by decide
/-- V-ALU-25 and V-DEC-7: the divisor is checked after the operands. -/
theorem test_mod_by_zero : after (step (started [11, 32768, 5, 0] (withReg 0 3))) (fun t => (faultOf t, readReg t 0)) =
    some ((.faulted, .divideByZero, 0, 0, 0), 3) := by decide
/-- V-ALU-28. -/
theorem test_and : after (step (started [12, 32768, 32769, 32770] (fun s => withReg 2 32768 (withReg 1 65535 s))))
    (fun t => readReg t 0) = some 32768 := by decide
/-- V-ALU-31. -/
theorem test_or : after (step (started [13, 32768, 32769, 1] (withReg 1 32768))) (fun t => readReg t 0) =
    some 32769 := by decide
/-- V-ALU-35. -/
theorem test_not : after (step (started [14, 32768, 32769] (withReg 1 40000))) (fun t => (readReg t 0, t.pc)) =
    some (25535, 3) := by decide
/-- V-CF-1. -/
theorem test_halt : after (step (placed 14 [0] (started [] id))) (fun t => (t.status.state, t.pc)) =
    some (.halted, 15) := by decide
/-- V-CF-3. -/
theorem test_jmp : after (step (started [6, 32768] (withReg 0 40000))) (fun t => (t.pc, t.status.state)) =
    some (40000, .running) := by decide
/-- V-CF-5. -/
theorem test_jt_not_taken : after (step (placed 5 [7, 32768, 20] (started [] id))) (fun t => t.pc) = some 8 := by
  decide
/-- V-CF-7. -/
theorem test_jt_resolves_the_target : after (step (started [7, 0, 32776] id)) faultOf =
    some (.faulted, .invalidAddress, 32776, 0, 0) := by decide
/-- V-CF-8. -/
theorem test_jf_taken : after (step (placed 11 [8, 32769, 3] (started [] id))) (fun t => t.pc) = some 3 := by decide
/-- V-CF-12. -/
theorem test_call_near_the_end : after (step (placed 32766 [17, 0] (started [] id))) (fun t => (t.stack, t.pc)) =
    some ([32768], 0) := by decide
/-- V-CF-13. -/
theorem test_call_full : after (step (started [17, 10] (fun s => withStack [8, 7] (withDepth 2 s)))) faultOf =
    some (.faulted, .stackOverflow, 2, 0, 0) := by decide
/-- V-CF-14. -/
theorem test_ret : after (step (placed 20 [18] (started [] (withStack [5])))) (fun t => (t.pc, t.stack)) =
    some (5, []) := by decide
/-- V-CF-15 and W4. -/
theorem test_ret_on_empty_halts : after (step (placed 20 [18] (started [] id)))
    (fun t => (t.status.state, t.status.faultCode, t.pc)) = some (.halted, .none, 21) := by decide
/-- V-DEC-9. -/
theorem test_noop_at_the_end : after (step (placed 32767 [21] (started [] id))) (fun t => t.pc) = some 32768 := by
  decide
/-- V-IO-2. -/
theorem test_out : after (step (started [19, 321] id)) (fun t => (t.output, t.pc)) = some ([65], 2) := by decide
/-- V-IO-4. -/
theorem test_in : after (step (started [20, 32768] (withInput [65, 66])))
    (fun t => (readReg t 0, t.input, t.pc)) = some (65, [66], 2) := by decide
/-- V-IO-6. -/
theorem test_in_pauses : after (step (started [20, 32768] id)) (fun t => (t.status.state, t.status.pauseCause, t.pc)) =
    some (.paused, .input, 0) := by decide

/-! ### Fetch, decode and the host -/

/-- V-DEC-2. -/
theorem test_opcode_is_never_resolved : after (step (started [32768] id)) faultOf =
    some (.faulted, .illegalOpcode, 32768, 0, 0) := by decide
/-- V-DEC-4. -/
theorem test_pc_outside_memory : after (step (started [] (setPc 32768))) faultOf =
    some (.faulted, .invalidAddress, 32768, 32768, 32768) := by decide
/-- V-DEC-5. -/
theorem test_operand_outside_memory : after (step (placed 32765 [9, 32768, 32768] (started [] id))) faultOf =
    some (.faulted, .invalidAddress, 32768, 32765, 32765) := by decide
/-- V-DEC-8. -/
theorem test_leftmost_invalid_operand : after (step (started [9, 32768, 40000, 50000] id)) faultOf =
    some (.faulted, .invalidAddress, 40000, 0, 0) := by decide
/-- V-HOST-1. -/
theorem test_run_in_halted : after (step { haltMachine (started [] id) with pending := [⟨0, .run⟩] })
    (fun t => t.status.state) = some .halted := by decide
/-- V-HOST-3, from reset: RESET(image) is given first. -/
theorem test_reset_loads : after (step { State.reset with pending := [⟨0, .reset [21, 0, 0, 0]⟩, ⟨0, .step⟩] })
    (fun t => (readWord t.mem 0, t.status.state, t.pending)) = some (21, .paused, [⟨0, .step⟩]) := by decide
theorem test_step_command :
    after (step { State.reset with mem := loadImage [21, 0], pending := [⟨0, .step⟩] })
      (fun t => (t.pc, t.status.state, t.status.pauseCause, t.force)) = some (1, .paused, .host, false) := by decide
/-- V-HOST-4: the first step is forced past a breakpoint. -/
theorem test_forced_step : after (step (startRun { State.reset with mem := loadImage [21, 0], breakEn := true }))
    (fun t => (t.pc, t.status.state)) = some (1, .running) := by decide
/-- W7, the check at address 3. -/
theorem test_breakpoint : after (step { placed 3 [21] (started [] id) with breakEn := true, breakAddr := 3 })
    (fun t => (t.pc, t.status.state, t.status.pauseCause)) = some (3, .paused, .breakpoint) := by decide
/-- V-IO-5. -/
theorem test_line_words : lineWords [104, 105] = [104, 105, 10] := by decide
/-- R243: an odd byte count. -/
theorem test_malformed_odd : after (step { State.reset with pending := [⟨0, .reset [21]⟩] }) faultOf =
    some (.faulted, .malformedImage, 1, 0, 0) := by decide
/-- W5. -/
theorem test_disassembly : disassembleFrom (loadImage [19, 0, 65, 0, 22, 0]) 3 3 0 = [⟨0, "out", [.literal 65]⟩] := by
  decide
/-- R52: `rmem 300 301` (V-DM-13) reads its three words and the data word, then writes. -/
theorem test_memory_port : stepAccesses (started [15, 300, 301] (writeMem 301 5)) =
    [.read 0, .read 1, .read 2, .read 301, .write 300 5] := by decide
/-- R226: the window lies around the cursor and inside memory (log entry 15). -/
theorem test_snapshot_window : windowAddresses 2 1 = [0, 1, 2, 3] ∧ windowAddresses 1 5 = [4, 5, 6] ∧
    windowAddresses 1 32767 = [32766, 32767] := by decide
theorem test_next_step_runs_the_placed_word : after (step (State.reset.withFetchWord 16 21)) (fun t => t.pc) =
    some 1 := by decide

/-! ### Witnesses: concrete states and operands that meet the hypotheses of each statement, one clause after another -/

/-- A running block with registers, a stack, input and memory to witness with; the block is Enabled. -/
def sample : State := started [1, 32769, 42] (fun s => withInput [65] (withStack [5] (withReg 2 40000 (withReg 1 9 s))))

/-- The sample with an empty stack and an empty queue. -/
def bare : State := started [] id

/-- The sample with STACK_DEPTH 1, so that its stack is full. -/
def full : State := withDepth 1 sample

/-- A PAUSED block with one command pending. -/
def paused (c : HostCmd) : State := { State.reset with pending := [⟨0, c⟩] }

theorem enabled_sample : Enabled sample := ⟨rfl, rfl, by decide⟩

theorem witness_DecodeOfEncodeIsTheInstruction :
    (Instr.set (.register 7) (.literal 32767)).wf = true ∧ (Instr.eq (.literal 0) (.invalid 32776) (.invalid 65535)).wf = true := by
  decide
theorem witness_DecodedWordsAreTheEncoding :
    decodeWords [1, 32775, 32776, 7] = .ok (.set (.register 7) (.invalid 32776), [7]) := rfl
theorem witness_OpcodeTableRowsDecode :
    ((9#16, "add", [Role.D, Role.V, Role.V]) ∈ tableRows ∧ ([0, 32768, 65535] : List Word).length = 3) ∧
    (21#16, "noop", []) ∈ tableRows := by decide
theorem witness_OperandWordsHaveOneClass :
    ((32767 : Word).toNat ≤ 32767) ∧ (32768 ≤ (32768 : Word).toNat ∧ (32775 : Word).toNat ≤ 32775) ∧
    32776 ≤ (32776 : Word).toNat := by decide
theorem witness_ResolveFollowsTheWordsClass :
    ((32767 : Word).toNat ≤ 32767) ∧ (32775 : Word).toNat = 32768 + (7 : Fin 8).val ∧ 32776 ≤ (32776 : Word).toNat := by
  decide
theorem witness_DestFollowsTheWordsClass :
    ((0 : Word).toNat ≤ 32767) ∧ (32768 : Word).toNat = 32768 + (0 : Fin 8).val ∧ 32776 ≤ (65535 : Word).toNat := by
  decide
theorem witness_StepExecutesTheInstructionAtPc :
    Enabled sample ∧ (Instr.set (.register 1) (.literal 42)).wf = true ∧
    sample.pc.toNat + (Instr.set (.register 1) (.literal 42)).length ≤ 32768 ∧
    StandsAt (.set (.register 1) (.literal 42)) sample.mem sample.pc.toNat := by
  refine ⟨enabled_sample, rfl, by decide, ?_⟩
  unfold StandsAt
  decide
theorem witness_StepFetchesAndDecodes_pc : Enabled (setPc 32768 sample) ∧ 32768 ≤ (setPc 32768 sample).pc.toNat :=
  ⟨⟨rfl, rfl, by decide⟩, by decide⟩
theorem witness_StepFetchesAndDecodes_operand :
    Enabled (placed 32766 [1, 32768] sample) ∧ (1#16, "set", [Role.D, Role.V]) ∈ tableRows ∧
    (placed 32766 [1, 32768] sample).pc.toNat < 32768 ∧
    readWord (placed 32766 [1, 32768] sample).mem (placed 32766 [1, 32768] sample).pc.toNat = 1 ∧
    (placed 32766 [1, 32768] sample).pc.toNat + 2 = 32768 := ⟨⟨rfl, rfl, by decide⟩, by decide⟩
theorem witness_StepFetchesAndDecodes_runs :
    Enabled sample ∧ (1#16, "set", [Role.D, Role.V]) ∈ tableRows ∧ sample.pc.toNat < 32768 ∧
    readWord sample.mem sample.pc.toNat = 1 ∧ sample.pc.toNat + 2 < 32768 := ⟨enabled_sample, by decide⟩
theorem witness_OpcodesAbove21AreIllegal :
    Enabled (placed 32767 [22] sample) ∧ (placed 32767 [22] sample).pc.toNat < 32768 ∧
    22 ≤ (readWord (placed 32767 [22] sample).mem (placed 32767 [22] sample).pc.toNat).toNat ∧ 32767 < 32768 :=
  ⟨⟨rfl, rfl, by decide⟩, by decide⟩
theorem witness_BreakpointIsCheckedBeforeEachStep :
    sample.status.state = .running ∧ sample.pending = [] ∧
    ({ sample with breakEn := true }.force = false ∧ { sample with breakEn := true }.breakEn = true ∧
      { sample with breakEn := true }.pc = { sample with breakEn := true }.breakAddr) ∧
    ¬ (sample.force = false ∧ sample.breakEn = true ∧ sample.pc = sample.breakAddr) := by decide
theorem witness_NoStepOutsideRunning :
    State.reset.pending = [] ∧ State.reset.status.state = .paused ∧ (haltMachine State.reset).status.state = .halted ∧
    (takeFault ⟨.illegalOpcode, 22⟩ State.reset).status.state = .faulted := by decide
theorem witness_PendingCommandWaitsForSteps :
    { sample with pending := [⟨1, .stop⟩] }.pending = [⟨0 + 1, .stop⟩] ∧ sample.status.state = .running ∧
    ({ sample with pending := [⟨0, .stop⟩] }.pending = [⟨0, .stop⟩]) := by decide

theorem witness_SetCopiesTheValue :
    (dest (.literal 32767) = .ok (.mem 32767) ∧ resolve sample (.register 2) = .ok 40000) ∧
    firstInvalid [.register 0, .invalid 32776] = some 32776 := ⟨⟨rfl, rfl⟩, rfl⟩
theorem witness_PushPutsTheValueOnTheStack :
    (resolve sample (.register 2) = .ok 40000 ∧ NotFull sample) ∧
    (resolve full (.literal 0) = .ok 0 ∧ Full full) :=
  ⟨⟨rfl, fun _ h => by cases h⟩, rfl, rfl⟩
theorem witness_PopTakesTheTopOfTheStack :
    (dest (.register 3) = .ok (.reg 3) ∧ sample.stack = 5 :: []) ∧ (dest (.literal 0) = .ok (.mem 0) ∧ bare.stack = []) :=
  ⟨⟨rfl, rfl⟩, rfl, rfl⟩
theorem witness_RmemReadsAMemoryWord :
    (dest (.register 0) = .ok (.reg 0) ∧ resolve sample (.literal 32767) = .ok 32767 ∧ (32767 : Word).toNat < 32768) ∧
    (resolve sample (.register 2) = .ok 40000 ∧ 32768 ≤ (40000 : Word).toNat) ∧
    firstInvalid [.invalid 65535, .invalid 32776] = some 65535 := ⟨⟨rfl, rfl, by decide⟩, ⟨rfl, by decide⟩, rfl⟩
theorem witness_WmemWritesAMemoryWord :
    (resolve sample (.register 1) = .ok 9 ∧ resolve sample (.register 2) = .ok 40000 ∧ (9 : Word).toNat < 32768) ∧
    (resolve sample (.register 2) = .ok 40000 ∧ 32768 ≤ (40000 : Word).toNat) ∧
    firstInvalid [.literal 5, .invalid 32776] = some 32776 := ⟨⟨rfl, rfl, by decide⟩, ⟨rfl, by decide⟩, rfl⟩

/-- The F3 instructions: a register and a memory destination, register and literal values, and an invalid operand in each
place. -/
theorem witness_binary :
    (dest (.register 1) = .ok (.reg 1) ∧ resolve sample (.register 1) = .ok 9 ∧ resolve sample (.register 2) = .ok 40000) ∧
    (dest (.literal 0) = .ok (.mem 0) ∧ resolve sample (.literal 32767) = .ok 32767 ∧ resolve sample (.literal 1) = .ok 1) ∧
    firstInvalid [.invalid 32776, .invalid 40000, .literal 0] = some 32776 ∧
    firstInvalid [.register 0, .invalid 40000, .invalid 50000] = some 40000 ∧
    firstInvalid [.register 0, .literal 1, .invalid 65535] = some 65535 :=
  ⟨⟨rfl, rfl, rfl⟩, ⟨rfl, rfl, rfl⟩, rfl, rfl, rfl⟩
theorem witness_EqWritesOneOrZero :
    dest (.register 1) = .ok (.reg 1) ∧ resolve sample (.register 1) = .ok 9 ∧ resolve sample (.literal 9) = .ok 9 :=
  ⟨rfl, rfl, rfl⟩
theorem witness_GtWritesOneOrZero :
    dest (.literal 7) = .ok (.mem 7) ∧ resolve sample (.register 2) = .ok 40000 ∧
    resolve sample (.literal 32767) = .ok 32767 := ⟨rfl, rfl, rfl⟩
theorem witness_AddIsTheSumModulo32768 :
    dest (.register 1) = .ok (.reg 1) ∧ resolve sample (.register 1) = .ok 9 ∧
    resolve sample (.literal 32767) = .ok 32767 := ⟨rfl, rfl, rfl⟩
theorem witness_MultIsTheProductModulo32768 :
    dest (.literal 32767) = .ok (.mem 32767) ∧ resolve sample (.register 2) = .ok 40000 ∧
    resolve sample (.literal 32767) = .ok 32767 := ⟨rfl, rfl, rfl⟩
theorem witness_ModIsTheRemainder :
    (dest (.register 7) = .ok (.reg 7) ∧ resolve sample (.register 2) = .ok 40000 ∧ resolve sample (.literal 7) = .ok 7 ∧
      (7 : Word) ≠ 0) ∧ resolve sample (.register 0) = .ok 0 := ⟨⟨rfl, rfl, rfl, by decide⟩, rfl⟩
theorem witness_AndIsBitwiseOn16Bits :
    dest (.register 0) = .ok (.reg 0) ∧ resolve sample (.register 2) = .ok 40000 ∧
    resolve sample (.register 2) = .ok 40000 := ⟨rfl, rfl, rfl⟩
theorem witness_OrIsBitwiseOn16Bits :
    dest (.register 0) = .ok (.reg 0) ∧ resolve sample (.register 2) = .ok 40000 ∧ resolve sample (.literal 1) = .ok 1 :=
  ⟨rfl, rfl, rfl⟩
theorem witness_NotComplements15Bits :
    (dest (.register 2) = .ok (.reg 2) ∧ resolve sample (.register 2) = .ok 40000) ∧
    firstInvalid [.register 0, .invalid 40000] = some 40000 := ⟨⟨rfl, rfl⟩, rfl⟩
theorem witness_JmpGoesToTheValue : resolve sample (.register 2) = .ok 40000 := rfl
theorem witness_JtJumpsIfNotZero :
    (resolve sample (.register 2) = .ok 40000 ∧ resolve sample (.literal 20) = .ok 20 ∧ (40000 : Word) ≠ 0) ∧
    resolve sample (.register 0) = .ok 0 ∧ firstInvalid [.literal 0, .invalid 32776] = some 32776 :=
  ⟨⟨rfl, rfl, by decide⟩, rfl, rfl⟩
theorem witness_JfJumpsIfZero :
    (resolve sample (.literal 0) = .ok 0 ∧ resolve sample (.register 1) = .ok 9) ∧
    (resolve sample (.literal 1) = .ok 1 ∧ (1 : Word) ≠ 0) ∧ firstInvalid [.invalid 32776, .literal 0] = some 32776 :=
  ⟨⟨rfl, rfl⟩, ⟨rfl, by decide⟩, rfl⟩
theorem witness_CallPushesTheReturnAddress :
    (resolve sample (.literal 10) = .ok 10 ∧ NotFull (withDepth 2 sample)) ∧ (resolve full (.literal 10) = .ok 10 ∧ Full full) := by
  refine ⟨⟨rfl, ?_⟩, rfl, rfl⟩
  intro n h
  injection h with h
  subst h
  decide
theorem witness_RetReturnsOrHalts : sample.stack = 5 :: [] ∧ bare.stack = [] := ⟨rfl, rfl⟩
theorem witness_OutSendsTheLowByte : resolve sample (.register 2) = .ok 40000 := rfl
theorem witness_InTakesOneWordOrPauses :
    (dest (.literal 100) = .ok (.mem 100) ∧ sample.input = 65 :: []) ∧ (dest (.register 0) = .ok (.reg 0) ∧ bare.input = []) :=
  ⟨⟨rfl, rfl⟩, rfl, rfl⟩

theorem witness_FaultsChangeOnlyTheStatusRecord :
    (setPc 32768 sample).status.state = .running ∧ (setPc 32768 sample).pending = [] ∧
    after (step (setPc 32768 sample)) (fun t => t.status.state) = some .faulted := by decide
theorem witness_FaultsPerInstruction :
    sample.status.state ≠ .faulted ∧
    exec (.rmem (.register 0) (.register 2)) sample = .next (takeFault ⟨.invalidAddress, 40000⟩ sample) ∧
    exec (.pop (.register 0)) bare = .next (takeFault ⟨.stackUnderflow, 0⟩ bare) ∧
    exec (.mod (.register 0) (.literal 5) (.literal 0)) bare = .next (takeFault ⟨.divideByZero, 0⟩ bare) ∧
    exec (.call (.literal 10)) full = .next (takeFault ⟨.stackOverflow, 2⟩ full) := ⟨by decide, rfl, rfl, rfl, rfl⟩
theorem witness_RunningIsLeftOnlyAsTheTableSays :
    (placed 0 [18] bare).status.state = .running ∧
    after (step (placed 0 [18] bare)) (fun t => t.status.state) = some .halted ∧
    after (step (placed 0 [20, 0] bare)) (fun t => (t.status.state, t.status.pauseCause)) = some (.paused, .input) ∧
    after (step { bare with breakEn := true }) (fun t => (t.status.state, t.status.pauseCause)) =
      some (.paused, .breakpoint) ∧
    after (step { bare with pending := [⟨0, .stop⟩] }) (fun t => (t.status.state, t.status.pauseCause)) =
      some (.paused, .host) ∧
    after (step { bare with pending := [⟨0, .reset []⟩] }) (fun t => (t.status.state, t.status.pauseCause)) =
      some (.paused, .host) ∧
    after (step { setPc 32768 bare with pending := [⟨1, .stop⟩] }) (fun t => t.status.state) = some .faulted ∧
    after (step { bare with pending := [⟨0, .reset [7]⟩] }) (fun t => (t.status.state, t.status.faultCode)) =
      some (.faulted, .malformedImage) := by decide
theorem witness_InstructionsLeaveRunningOnlyAsTheTableSays :
    bare.status.state = .running ∧ exec .ret bare = .next (haltMachine (advance 0 bare)) ∧
    exec (.inp (.literal 0)) bare = .next (pause .input bare) ∧
    exec (.pop (.literal 0)) bare = .next (takeFault ⟨.stackUnderflow, 0⟩ bare) := ⟨rfl, rfl, rfl, rfl⟩
theorem witness_OnlyStackInstructionsReachTheStack :
    exec (.push (.literal 7)) sample = .next (advance 1 (stackPush 7 sample)) ∧
    (advance 1 (stackPush 7 sample)).stack ≠ sample.stack := ⟨rfl, by decide⟩
theorem witness_OnlyOutSendsAndOnlyInTakes :
    exec (.out (.literal 65)) sample = .next (advance 1 (emit 65 sample)) := rfl
theorem witness_OnlyTheDestinationRegisterChanges :
    exec (.set (.register 0) (.literal 7)) sample = .next (advance 2 (writeReg 0 7 sample)) ∧
    readReg (advance 2 (writeReg 0 7 sample)) 0 ≠ readReg sample 0 := ⟨rfl, by decide⟩
theorem witness_OnlyTheDestinationWordChanges :
    exec (.wmem (.literal 32767) (.literal 7)) sample = .next (advance 2 (writeMem 32767 7 sample)) ∧
    readByte (advance 2 (writeMem 32767 7 sample)).mem 65534 ≠ readByte sample.mem 65534 := ⟨rfl, by decide⟩
theorem witness_NoInstructionWritesRegisterAndMemory :
    exec (.set (.register 0) (.literal 7)) sample = .next (advance 2 (writeReg 0 7 sample)) ∧
    readReg (advance 2 (writeReg 0 7 sample)) 0 ≠ readReg sample 0 := ⟨rfl, by decide⟩
theorem witness_TerminalStatesAreLeftOnlyByReset :
    (haltMachine bare).status.state = .halted ∧
    after (step { haltMachine bare with pending := [⟨3, .reset []⟩] }) (fun t => t.status.state) = some .paused := by decide
theorem witness_MemoryPortAccountsForEachStep :
    (Enabled (setPc 32768 sample) ∧ 32768 ≤ (setPc 32768 sample).pc.toNat) ∧
    (Enabled (placed 32767 [22] sample) ∧
      22 ≤ (readWord (placed 32767 [22] sample).mem (placed 32767 [22] sample).pc.toNat).toNat) ∧
    (Enabled (placed 32766 [1, 32768] sample) ∧ (1#16, "set", [Role.D, Role.V]) ∈ tableRows ∧
      readWord (placed 32766 [1, 32768] sample).mem (placed 32766 [1, 32768] sample).pc.toNat = 1) :=
  ⟨⟨⟨rfl, rfl, by decide⟩, by decide⟩, ⟨⟨rfl, rfl, by decide⟩, by decide⟩, ⟨rfl, rfl, by decide⟩, by decide⟩
theorem witness_RunStartsAForcedStep :
    (paused .run).pending = ⟨0, .run⟩ :: [] ∧ (paused .run).status.state = .paused ∧
    { haltMachine bare with pending := [⟨0, .run⟩] }.status.state ≠ .paused ∧
    after (step (paused .run)) (fun t => t.status.state) = some .running := by decide
theorem witness_StepCommandExecutesOneStep :
    (paused .step).pending = ⟨0, .step⟩ :: [] ∧ (paused .step).status.state = .paused ∧
    { haltMachine bare with pending := [⟨0, .step⟩] }.status.state = .halted := by decide
theorem witness_StopPausesARunningBlock :
    { sample with pending := [⟨0, .stop⟩] }.pending = ⟨0, .stop⟩ :: [] ∧ sample.status.state = .running := by decide
theorem witness_HostOverwritesRegisterOrPc :
    (paused (.setReg 7 65535)).pending = ⟨0, .setReg 7 65535⟩ :: [] ∧
    (paused (.setPc 40000)).pending = ⟨0, .setPc 40000⟩ :: [] := by decide
theorem witness_HostSetsBreakpointAndInput :
    (paused (.breakAt 3)).pending = ⟨0, .breakAt 3⟩ :: [] ∧ (paused (.enqueue [65])).pending = ⟨0, .enqueue [65]⟩ :: [] ∧
    (paused .snapshot).pending = ⟨0, .snapshot⟩ :: [] ∧ (paused .exit).pending = ⟨0, .exit⟩ :: [] := by decide
theorem witness_ResetLoadsTheImage :
    (paused (.reset [18, 0])).pending = ⟨0, .reset [18, 0]⟩ :: [] ∧ ([18, 0] : List Byte).length % 2 = 0 ∧
    ([18, 0] : List Byte).length ≤ 65536 := by decide
theorem witness_MalformedImageFaultsAtLoad :
    ((paused (.reset [18])).pending = ⟨0, .reset [18]⟩ :: [] ∧ ([18] : List Byte).length % 2 = 1) ∧
    65536 < (List.replicate 65537 (0 : Byte)).length := by
  refine ⟨by decide, ?_⟩
  rw [List.length_replicate]
  decide
theorem witness_DisassemblyWalksTheBank :
    (Instr.out (.literal 65)).wf = true ∧ 0 + (Instr.out (.literal 65)).length ≤ 3 ∧
    StandsAt (.out (.literal 65)) (loadImage [19, 0, 65, 0, 22, 0]) 0 ∧
    22 ≤ (readWord (loadImage [19, 0, 65, 0, 22, 0]) 2).toNat := by
  refine ⟨rfl, by decide, ?_, by decide⟩
  unfold StandsAt
  decide
theorem witness_StepKeepsTheInvariant :
    sample.Inv ∧ after (step sample) (fun t => readReg t 1) = some 42 := by
  refine ⟨⟨?_, by decide, fun n h => by cases h⟩, by decide⟩
  unfold Memory.wf
  decide

end Sys2Proof.Tests
end

section
/-! SUPPORT. What each answer of an instruction leaves unchanged: the inversion of an executed instruction, and the frame
of its effects, field by field. -/

namespace Sys2Proof.Machine

open Sys2Proof.Claims

/-- Everything the next state of an executed instruction can be. -/
theorem exec_next_cases {i : Instr} {s t : State} (h : exec i s = .next t) :
    (∃ e : Raised, e.code ≠ .none ∧ t = takeFault e s) ∨
    (∃ a, i = .inp a ∧ s.input = [] ∧ t = pause .input s) ∨ Effect s i t := by
  rcases exec_cases i s with ⟨e, he, h'⟩ | ⟨a, hi, hin, h'⟩ | ⟨u, h', hu⟩ <;>
    obtain rfl := Host.Outcome.next.inj (h.symm.trans h')
  · exact .inl ⟨e, he, rfl⟩
  · exact .inr (.inl ⟨a, hi, hin, rfl⟩)
  · exact .inr (.inr hu)

/-! ### The status record -/

/-- An effect keeps the status record, except that halt, and ret on an empty stack, write HALTED. -/
theorem Effect.status_cases {i : Instr} {s t : State} (h : Effect s i t) :
    t.status = s.status ∨
    (t.status = { s.status with state := .halted } ∧ (i = .halt ∨ (i = .ret ∧ s.stack = []))) := by
  cases h with
  | halt => exact .inr ⟨rfl, .inl rfl⟩
  | retHalt hs => exact .inr ⟨rfl, .inr ⟨rfl, hs⟩⟩
  | jt | jf => left; split <;> rfl
  | _ => left; simp

/-! ### The host side and the parameter -/

/-- An effect keeps the breakpoint, FORCE, what is pending and STACK_DEPTH. -/
theorem Effect.sameHostSide {i : Instr} {s t : State} (h : Effect s i t) : SameHostSide s t := by
  cases h with
  | jt | jf => split <;> exact ⟨rfl, rfl, rfl, rfl, rfl⟩
  | _ => simp [SameHostSide]

/-- An executed instruction keeps the breakpoint, FORCE, what is pending and STACK_DEPTH. -/
theorem exec_sameHostSide {i : Instr} {s t : State} (h : exec i s = .next t) : SameHostSide s t := by
  rcases exec_next_cases h with ⟨e, -, rfl⟩ | ⟨a, -, -, rfl⟩ | h
  · exact ⟨rfl, rfl, rfl, rfl, rfl⟩
  · exact ⟨rfl, rfl, rfl, rfl, rfl⟩
  · exact h.sameHostSide

/-! ### Memory -/

/-- An effect keeps memory canonical: the words written lie inside memory. -/
theorem Effect.mem_wf {i : Instr} {s t : State} (h : Effect s i t) (hm : Memory.wf s.mem) : Memory.wf t.mem := by
  cases h with
  | write v n _ hd => exact writeLoc_wf hm hd v
  | @pop a d v rest hd => exact writeLoc_wf (s := setStack rest s) hm hd v
  | @inp a d v rest hd => exact writeLoc_wf (s := setInput rest s) hm hd v
  | wmem _ _ hlt => exact writeWord_wf hm _ hlt
  | jt | jf => split <;> exact hm
  | _ => exact hm

/-! ### The call stack -/

/-- An effect keeps the stack, or it is that of push or call on a stack that is not full, or of pop or ret on one that is
not empty. -/
theorem Effect.stack_cases {i : Instr} {s t : State} (h : Effect s i t) :
    t.stack = s.stack ∨
    (((∃ a, i = .push a) ∨ ∃ a, i = .call a) ∧ stackFull s = false ∧ ∃ v, t.stack = v :: s.stack) ∨
    (((∃ a, i = .pop a) ∨ i = .ret) ∧ ∃ v, s.stack = v :: t.stack) := by
  cases h with
  | push _ hf => exact .inr (.inl ⟨.inl ⟨_, rfl⟩, hf, _, rfl⟩)
  | call _ hf => exact .inr (.inl ⟨.inr ⟨_, rfl⟩, hf, _, rfl⟩)
  | pop _ hs => exact .inr (.inr ⟨.inl ⟨_, rfl⟩, _, by simpa using hs⟩)
  | ret hs => exact .inr (.inr ⟨.inr rfl, _, hs⟩)
  | jt | jf => left; split <;> rfl
  | _ => left; simp

/-- A stack that is not full holds fewer entries than STACK_DEPTH. -/
theorem length_lt_of_not_stackFull {s : State} (hf : stackFull s = false) {n : Nat} (hn : s.cfg.stackDepth = some n) :
    s.stack.length < n := by
  have hnot : ¬ ∃ m, s.cfg.stackDepth = some m ∧ m ≤ s.stack.length := by simp [← stackFull_iff, hf]
  exact Nat.lt_of_not_le fun hle => hnot ⟨n, hn, hle⟩

/-- An effect keeps the stack within STACK_DEPTH: only a stack that is not full grows. -/
theorem Effect.stackWithinDepth {i : Instr} {s t : State} (h : Effect s i t) (hs : s.stackWithinDepth) :
    t.stackWithinDepth := by
  intro n hn
  obtain ⟨-, -, -, -, hcfg⟩ := h.sameHostSide
  rw [hcfg] at hn
  rcases h.stack_cases with hst | ⟨-, hf, v, hst⟩ | ⟨-, v, hst⟩
  · rw [hst]; exact hs n hn
  · rw [hst]; exact length_lt_of_not_stackFull hf hn
  · have hle := hs n hn
    rw [hst, List.length_cons] at hle
    omega

/-! ### Registers -/

/-- A location write changes no register but the one that the destination operand names. -/
theorem register_of_readReg_writeLoc_ne {a : Operand} {d : Loc} (hd : dest a = .ok d) {v : Word} {s : State} {r : Fin 8}
    (hr : readReg (writeLoc d v s) r ≠ readReg s r) : a = .register r := by
  rcases dest_ok hd with ⟨i, rfl, rfl⟩ | ⟨w, -, rfl, -⟩
  · by_cases hri : r = i
    · rw [hri]
    · exact absurd (readReg_writeReg_ne v s hri) hr
  · exact absurd rfl hr

/-- An effect changes no register but the one that the D operand names. -/
theorem Effect.dstOperand_of_readReg_ne {i : Instr} {s t : State} (h : Effect s i t) {r : Fin 8}
    (hr : readReg t r ≠ readReg s r) : dstOperand i = some (.register r) := by
  cases h with
  | write v n hi hd => rw [hi, register_of_readReg_writeLoc_ne hd hr]
  | @pop a d v rest hd =>
    exact congrArg some (register_of_readReg_writeLoc_ne (s := setStack rest s) hd hr)
  | @inp a d v rest hd =>
    exact congrArg some (register_of_readReg_writeLoc_ne (s := setInput rest s) hd hr)
  | jt | jf => exact absurd (by split <;> rfl) hr
  | _ => exact absurd rfl hr

end Sys2Proof.Machine
end

section
/-! SUPPORT. The invariant: every state update of the block and every command of the host keeps it. -/

namespace Sys2Proof.Machine

/-! ### A consistent status record -/

/-- In RUNNING the status record is consistent when it shows no pause cause and no fault. -/
theorem Status.consistent_running_iff {st : Status} (hr : st.state = .running) :
    st.consistent ↔ st.pauseCause = .none ∧ st.faultCode = .none ∧ st.faultValue = 0 ∧ st.faultPc = 0 := by
  simp [Status.consistent, hr]

/-- A running block's record stays consistent when it pauses with a cause. -/
theorem Status.consistent_pause {st : Status} (hr : st.state = .running) (h : st.consistent) {c : PauseCause}
    (hc : c ≠ .none) : Status.consistent { st with state := .paused, pauseCause := c } := by
  obtain ⟨-, hcode, hval, hpc⟩ := (Status.consistent_running_iff hr).1 h
  simp [Status.consistent, hc, hcode, hval, hpc]

/-- A running block's record stays consistent when it halts. -/
theorem Status.consistent_halt {st : Status} (hr : st.state = .running) (h : st.consistent) :
    Status.consistent { st with state := .halted } := by
  obtain ⟨hcause, hcode, hval, hpc⟩ := (Status.consistent_running_iff hr).1 h
  simp [Status.consistent, hcause, hcode, hval, hpc]

/-- A running block's record stays consistent when it records a real fault. -/
theorem Status.consistent_fault {st : Status} (hr : st.state = .running) (h : st.consistent) {code : FaultCode}
    (hc : code ≠ .none) (v pc : Word) : Status.consistent ⟨.faulted, st.pauseCause, code, v, pc⟩ := by
  obtain ⟨hcause, -, -, -⟩ := (Status.consistent_running_iff hr).1 h
  simp [Status.consistent, hcause, hc]

/-- A paused block's record stays consistent when the block starts to run. -/
theorem Status.consistent_startRun {st : Status} (hp : st.state = .paused) (h : st.consistent) :
    Status.consistent { st with state := .running, pauseCause := .none } := by
  obtain ⟨-, hfault, hnone⟩ := h
  have hne : st.state ≠ .faulted := by simp [hp]
  have hcode : st.faultCode = .none := not_not.1 (mt hfault.2 hne)
  obtain ⟨hval, hpc⟩ := hnone hne
  simp [Status.consistent, hcode, hval, hpc]

/-! ### The block's updates -/

/-- The invariant does not speak of what is pending. -/
theorem State.Inv.withPending {s : State} (h : s.Inv) (plan : List HostAction) :
    State.Inv { s with pending := plan } :=
  ⟨h.mem, h.status, h.stack⟩

theorem pause_inv {s : State} (hr : s.status.state = .running) (h : s.Inv) {c : PauseCause} (hc : c ≠ .none) :
    (pause c s).Inv :=
  ⟨h.mem, Status.consistent_pause hr h.status hc, h.stack⟩

theorem takeFault_inv {s : State} (hr : s.status.state = .running) (h : s.Inv) {e : Raised} (he : e.code ≠ .none) :
    (takeFault e s).Inv :=
  ⟨h.mem, Status.consistent_fault hr h.status he _ _, h.stack⟩

theorem startRun_inv {s : State} (hp : s.status.state = .paused) (h : s.Inv) : (startRun s).Inv :=
  ⟨h.mem, Status.consistent_startRun hp h.status, h.stack⟩

theorem Effect.inv {i : Instr} {s t : State} (hr : s.status.state = .running) (h : s.Inv) (he : Effect s i t) :
    t.Inv := by
  refine ⟨he.mem_wf h.mem, ?_, he.stackWithinDepth h.stack⟩
  rcases he.status_cases with hst | ⟨hst, -⟩ <;> rw [hst]
  · exact h.status
  · exact Status.consistent_halt hr h.status

/-- An instruction executed in RUNNING keeps the invariant. -/
theorem exec_inv {i : Instr} {s t : State} (hr : s.status.state = .running) (h : s.Inv) (ht : exec i s = .next t) :
    t.Inv := by
  rcases exec_next_cases ht with ⟨e, he, rfl⟩ | ⟨a, -, -, rfl⟩ | heff
  · exact takeFault_inv hr h he
  · exact pause_inv hr h (by decide)
  · exact heff.inv hr h

/-- The instruction at pc, with its fetch, keeps the invariant in RUNNING. -/
theorem executeAtPc_inv {s t : State} (hr : s.status.state = .running) (h : s.Inv) (ht : executeAtPc s = .next t) :
    t.Inv := by
  rcases executeAtPc_cases s with ⟨e, -, he, h'⟩ | ⟨i, u, -, hu, h'⟩ <;>
    obtain rfl := Host.Outcome.next.inj (ht.symm.trans h')
  · exact takeFault_inv hr h he
  · exact exec_inv hr h hu

/-! ### The block's turn -/

/-- Everything the block's own turn can do: it pauses at a breakpoint, or it executes the instruction at pc and clears
FORCE; in both cases it is RUNNING. -/
theorem blockStep_next_cases {s t : State} (h : blockStep s = .next t) :
    s.status.state = .running ∧
    ((s.force = false ∧ s.breakEn = true ∧ s.pc = s.breakAddr ∧ t = pause .breakpoint s) ∨
      ∃ u, executeAtPc s = .next u ∧ t = { u with force := false }) := by
  cases hr : s.status.state with
  | running =>
    refine ⟨rfl, ?_⟩
    by_cases hb : s.force = false ∧ s.breakEn = true ∧ s.pc = s.breakAddr
    · rw [blockStep_breakpoint hr hb] at h
      obtain ⟨hforce, hen, haddr⟩ := hb
      exact .inl ⟨hforce, hen, haddr, (Host.Outcome.next.inj h).symm⟩
    · obtain ⟨u, hu⟩ := executeAtPc_next s
      rw [blockStep_running hr hb, hu] at h
      exact .inr ⟨u, hu, (Host.Outcome.next.inj h).symm⟩
  | paused | halted | faulted => simp [blockStep, hr] at h

/-- The block's own turn keeps the invariant. -/
theorem blockStep_inv {s t : State} (h : s.Inv) (ht : blockStep s = .next t) : t.Inv := by
  obtain ⟨hr, ⟨-, -, -, rfl⟩ | ⟨u, hu, rfl⟩⟩ := blockStep_next_cases ht
  · exact pause_inv hr h (by decide)
  · obtain ⟨hmem, hstatus, hstack⟩ := executeAtPc_inv hr h hu
    exact ⟨hmem, hstatus, hstack⟩

/-! ### The host's commands -/

/-- An image is well formed when it has an even number of at most 65536 bytes (R243). -/
theorem malformedValue_eq_none_iff (image : List Byte) :
    malformedValue image = none ↔ image.length % 2 = 0 ∧ image.length ≤ 65536 := by
  unfold malformedValue
  simp only [Config.memBytes]
  split <;> split <;> simp <;> omega

theorem resetBlock_wellFormed {image : List Byte} (h : malformedValue image = none) (s : State) :
    resetBlock image s = { State.reset with mem := loadImage image, pending := s.pending, cfg := s.cfg } := by
  simp [resetBlock, h]

theorem resetBlock_malformed {image : List Byte} {v : Word} (h : malformedValue image = some v) (s : State) :
    resetBlock image s = { State.reset with status := malformedStatus v, pending := s.pending, cfg := s.cfg } := by
  simp [resetBlock, h]

theorem reset_inv : State.reset.Inv := ⟨reset_mem_wf, by decide, fun _ _ => Nat.zero_le _⟩

/-- RESET gives the invariant, with any image and from any state. -/
theorem resetBlock_inv (image : List Byte) (s : State) : (resetBlock image s).Inv := by
  cases hv : malformedValue image with
  | none =>
    obtain ⟨-, hlen⟩ := (malformedValue_eq_none_iff image).1 hv
    rw [resetBlock_wellFormed hv]
    exact ⟨loadImage_wf image hlen, reset_inv.status, fun n _ => Nat.zero_le n⟩
  | some v =>
    rw [resetBlock_malformed hv]
    exact ⟨reset_mem_wf, by simp [Status.consistent, malformedStatus], fun n _ => Nat.zero_le n⟩

/-- The pause after a STEP keeps the invariant. -/
theorem pauseIfRunning_inv {s : State} (h : s.Inv) : (pauseIfRunning s).Inv := by
  unfold pauseIfRunning
  split
  · next hr => exact pause_inv hr h (by decide)
  · exact h

/-- A single step is the block's turn from the started state, and the pause after it. -/
theorem singleStep_next {s t : State} (h : singleStep s = .next t) :
    ∃ u, blockStep (startRun s) = .next u ∧ t = pauseIfRunning u := by
  unfold singleStep at h
  split at h
  · next u hu => exact ⟨u, hu, (Host.Outcome.next.inj h).symm⟩
  · cases h
  · cases h

/-- RUN starts a paused block and does nothing in the other states (R222). -/
theorem hostCommand_run_next {s t : State} (h : hostCommand .run s = .next t) :
    (s.status.state = .paused ∧ t = startRun s) ∨ t = s := by
  cases hr : s.status.state with
  | paused => exact .inl ⟨rfl, by simpa [hostCommand, hr] using h.symm⟩
  | running | halted | faulted => exact .inr (by simpa [hostCommand, hr] using h.symm)

/-- STEP is a single step of a paused block and does nothing in HALTED and FAULTED (R223). -/
theorem hostCommand_step_next {s t : State} (h : hostCommand .step s = .next t) :
    (s.status.state = .paused ∧ singleStep s = .next t) ∨ (s.status.state ≠ .running ∧ t = s) := by
  cases hr : s.status.state with
  | paused => exact .inl ⟨rfl, by simpa [hostCommand, hr] using h⟩
  | running => simp [hostCommand, hr] at h
  | halted | faulted => exact .inr ⟨by decide, by simpa [hostCommand, hr] using h.symm⟩

/-- STOP pauses a running block (R221). -/
theorem hostCommand_stop_next {s t : State} (h : hostCommand .stop s = .next t) :
    s.status.state = .running ∧ t = pause .host s := by
  cases hr : s.status.state with
  | running => exact ⟨rfl, by simpa [hostCommand, hr] using h.symm⟩
  | paused | halted | faulted => simp [hostCommand, hr] at h

/-- Every command of the host keeps the invariant. -/
theorem hostCommand_inv {c : HostCmd} {s t : State} (h : s.Inv) (ht : hostCommand c s = .next t) : t.Inv := by
  cases c with
  | reset image =>
    obtain rfl := Host.Outcome.next.inj ht
    exact resetBlock_inv image s
  | run =>
    rcases hostCommand_run_next ht with ⟨hp, rfl⟩ | rfl
    · exact startRun_inv hp h
    · exact h
  | step =>
    rcases hostCommand_step_next ht with ⟨hp, hs⟩ | ⟨-, rfl⟩
    · obtain ⟨u, hu, rfl⟩ := singleStep_next hs
      exact pauseIfRunning_inv (blockStep_inv (startRun_inv hp h) hu)
    · exact h
  | stop =>
    obtain ⟨hr, rfl⟩ := hostCommand_stop_next ht
    exact pause_inv hr h (by decide)
  | breakAt | setReg | setPc | enqueue | snapshot | exit =>
    obtain rfl := Host.Outcome.next.inj ht
    exact ⟨h.mem, h.status, h.stack⟩

/-! ### The step of the machine -/

/-- A step is the host's command that is due, or the block's turn after the passing of a step. -/
theorem step_next_cases {s t : State} (h : step s = .next t) :
    (∃ n c rest, s.pending = ⟨n, c⟩ :: rest ∧ (n = 0 ∨ s.status.state ≠ .running) ∧
      hostCommand c { s with pending := rest } = .next t) ∨
    ((∀ n c rest, s.pending = ⟨n, c⟩ :: rest → n ≠ 0 ∧ s.status.state = .running) ∧
      blockStep (tick s) = .next t) := by
  unfold step dueCommand at h
  cases hp : s.pending with
  | nil => exact .inr ⟨by simp, by simpa [hp] using h⟩
  | cons a rest =>
    by_cases hd : a.after = 0 ∨ s.status.state ≠ .running
    · exact .inl ⟨a.after, a.cmd, rest, rfl, hd, by simpa only [hp, if_pos hd] using h⟩
    · refine .inr ⟨?_, by simpa only [hp, if_neg hd] using h⟩
      rintro n c rest' heq
      obtain ⟨rfl, -⟩ := List.cons.inj heq
      simpa using hd

end Sys2Proof.Machine

namespace Sys2Proof.Proofs

open Sys2Proof.Machine

/-- Settles O57: a step is a command of the host or the block's turn, and each keeps the invariant. -/
theorem stepKeepsTheInvariant : Obligations.StepKeepsTheInvariant := by
  intro s t h ht
  rcases step_next_cases ht with ⟨n, c, rest, -, -, hc⟩ | ⟨-, hb⟩
  · exact hostCommand_inv (h.withPending rest) hc
  · obtain ⟨plan, htick⟩ := tick_eq s
    rw [htick] at hb
    exact blockStep_inv (h.withPending plan) hb

/-- Settles O58: memory is empty, the record says PAUSED by the host, and the stack is empty. -/
theorem resetHasTheInvariant : Obligations.ResetHasTheInvariant := reset_inv

end Sys2Proof.Proofs
end

section
/-! SUPPORT. Two runs of one instruction: from a state, and from that state with another status record and another host
side. No instruction reads either, so the two answers differ in these alone. -/

namespace Sys2Proof.Machine

open Sys2Proof.Claims

/-- s with the status record st and with the breakpoint, FORCE and the plan of the host that h has. -/
def withOutside (h : State) (st : Status) (s : State) : State :=
  withHostSide h.breakEn h.breakAddr h.force h.pending { s with status := st }

/-- The next states of two runs, from s and from s with the outside of h and st: the second is the first with the outside
of h and some status record, which is the first one's where the two runs began with the same. -/
def RunsAlike (h : State) (st : Status) (s : State) (r r' : Result) : Prop :=
  ∃ t st', r = .next t ∧ r' = .next (withOutside h st' t) ∧ (st = s.status → st' = t.status)

section TwoRuns

variable (h : State) (st : Status)

/-! ### What the outside does not touch -/

@[simp] theorem resolve_withOutside (s : State) (o : Operand) : resolve (withOutside h st s) o = resolve s o := by
  cases o <;> rfl

@[simp] theorem stackFull_withOutside (s : State) : stackFull (withOutside h st s) = stackFull s := rfl

theorem writeLoc_withOutside (d : Loc) (v : Word) (s : State) :
    writeLoc d v (withOutside h st s) = withOutside h st (writeLoc d v s) := by
  cases d <;> rfl

@[simp] theorem stack_withOutside (s : State) : (withOutside h st s).stack = s.stack := rfl

@[simp] theorem input_withOutside (s : State) : (withOutside h st s).input = s.input := rfl

/-- With its own host side a state differs in the status record alone. -/
theorem withOutside_of_sameHostSide {s t : State} (ht : SameHostSide s t) :
    withOutside s st t = { t with status := st } := by
  obtain ⟨hen, haddr, hforce, hplan, -⟩ := ht
  rw [withOutside, withHostSide, ← hen, ← haddr, ← hforce, ← hplan]

/-! ### Runs that end alike -/

/-- Two runs that update their status records in one way, and nothing else differently, are alike. -/
theorem runsAlike_update (g : Status → Status) {s t : State} (ht : t.status = g s.status) :
    RunsAlike h st s (.next t) (.next (withOutside h (g st) t)) :=
  ⟨t, g st, rfl, rfl, fun hst => by rw [ht, hst]⟩

/-- Two runs that keep their status records are alike. -/
theorem runsAlike_next {s t : State} (ht : t.status = s.status) :
    RunsAlike h st s (.next t) (.next (withOutside h st t)) := runsAlike_update h st id ht

/-- Two runs that take the same fault are alike. -/
theorem runsAlike_takeFault (e : Raised) (s : State) :
    RunsAlike h st s (.next (takeFault e s)) (.next (takeFault e (withOutside h st s))) :=
  runsAlike_update h st (fun u => ⟨.faulted, u.pauseCause, e.code, e.value, s.pc⟩) rfl

/-- Two runs that write a result and advance are alike. -/
theorem runsAlike_write (d : Loc) (v : Word) (n : Nat) {s u : State} (hu : u.status = s.status) :
    RunsAlike h st s (.next (advance n (writeLoc d v u))) (.next (advance n (writeLoc d v (withOutside h st u)))) := by
  rw [writeLoc_withOutside]
  exact runsAlike_next h st (by simpa using hu)

/-- Two runs that make the same check are alike where they go on alike. -/
theorem runsAlike_orRaise {α : Type} (s : State) (x : Except Raised α) {k k' : α → Result}
    (hk : ∀ v, RunsAlike h st s (k v) (k' v)) : RunsAlike h st s (orRaise s x k) (orRaise (withOutside h st s) x k') := by
  cases x with
  | error e => exact runsAlike_takeFault h st e s
  | ok v => exact hk v

/-! ### The instructions -/

theorem binaryAlu_runsAlike (op : Word → Word → Except Raised Word) (a b c : Operand) (s : State) :
    RunsAlike h st s (binaryAlu op a b c s) (binaryAlu op a b c (withOutside h st s)) := by
  simp only [binaryAlu, resolve_withOutside]
  exact runsAlike_orRaise h st s _ fun d => runsAlike_orRaise h st s _ fun v1 => runsAlike_orRaise h st s _ fun v2 =>
    runsAlike_orRaise h st s _ fun v => runsAlike_write h st d v 3 rfl

theorem execSet_runsAlike (a b : Operand) (s : State) :
    RunsAlike h st s (execSet a b s) (execSet a b (withOutside h st s)) := by
  simp only [execSet, resolve_withOutside]
  exact runsAlike_orRaise h st s _ fun d => runsAlike_orRaise h st s _ fun v => runsAlike_write h st d v 2 rfl

theorem execNot_runsAlike (a b : Operand) (s : State) :
    RunsAlike h st s (execNot a b s) (execNot a b (withOutside h st s)) := by
  simp only [execNot, resolve_withOutside]
  exact runsAlike_orRaise h st s _ fun d => runsAlike_orRaise h st s _ fun v => runsAlike_write h st d _ 2 rfl

theorem execRmem_runsAlike (a b : Operand) (s : State) :
    RunsAlike h st s (execRmem a b s) (execRmem a b (withOutside h st s)) := by
  simp only [execRmem, resolve_withOutside]
  exact runsAlike_orRaise h st s _ fun d => runsAlike_orRaise h st s _ fun v => runsAlike_orRaise h st s _ fun x =>
    runsAlike_write h st d (readWord s.mem x) 2 rfl

theorem execWmem_runsAlike (a b : Operand) (s : State) :
    RunsAlike h st s (execWmem a b s) (execWmem a b (withOutside h st s)) := by
  simp only [execWmem, resolve_withOutside]
  exact runsAlike_orRaise h st s _ fun va => runsAlike_orRaise h st s _ fun v => runsAlike_orRaise h st s _ fun x =>
    runsAlike_write h st (.mem x) v 2 rfl

theorem execPush_runsAlike (a : Operand) (s : State) :
    RunsAlike h st s (execPush a s) (execPush a (withOutside h st s)) := by
  simp only [execPush, resolve_withOutside]
  refine runsAlike_orRaise h st s _ fun v => ?_
  rw [stackFull_withOutside]
  split
  · exact runsAlike_takeFault h st _ s
  · exact runsAlike_next h st (t := advance 1 (stackPush v s)) rfl

theorem execCall_runsAlike (a : Operand) (s : State) :
    RunsAlike h st s (execCall a s) (execCall a (withOutside h st s)) := by
  simp only [execCall, resolve_withOutside]
  refine runsAlike_orRaise h st s _ fun t => ?_
  rw [stackFull_withOutside]
  split
  · exact runsAlike_takeFault h st _ s
  · exact runsAlike_next h st (t := setPc t (stackPush (nextPc 1 s) s)) rfl

theorem execPop_runsAlike (a : Operand) (s : State) :
    RunsAlike h st s (execPop a s) (execPop a (withOutside h st s)) := by
  refine runsAlike_orRaise h st s _ fun d => ?_
  rw [stack_withOutside]
  split
  · exact runsAlike_takeFault h st _ s
  · next v rest _ => exact runsAlike_write h st d v 1 (u := setStack rest s) rfl

theorem execIn_runsAlike (a : Operand) (s : State) :
    RunsAlike h st s (execIn a s) (execIn a (withOutside h st s)) := by
  refine runsAlike_orRaise h st s _ fun d => ?_
  rw [input_withOutside]
  split
  · exact runsAlike_update h st (fun u => { u with state := .paused, pauseCause := .input }) (t := pause .input s) rfl
  · next v rest _ => exact runsAlike_write h st d v 1 (u := setInput rest s) rfl

theorem execOut_runsAlike (a : Operand) (s : State) :
    RunsAlike h st s (execOut a s) (execOut a (withOutside h st s)) := by
  simp only [execOut, resolve_withOutside]
  exact runsAlike_orRaise h st s _ fun v => runsAlike_next h st (t := advance 1 (emit (lowByte v) s)) rfl

theorem execJmp_runsAlike (a : Operand) (s : State) :
    RunsAlike h st s (execJmp a s) (execJmp a (withOutside h st s)) := by
  simp only [execJmp, resolve_withOutside]
  exact runsAlike_orRaise h st s _ fun t => runsAlike_next h st (t := setPc t s) rfl

theorem execJt_runsAlike (a b : Operand) (s : State) :
    RunsAlike h st s (execJt a b s) (execJt a b (withOutside h st s)) := by
  simp only [execJt, resolve_withOutside]
  refine runsAlike_orRaise h st s _ fun v => runsAlike_orRaise h st s _ fun t => ?_
  split
  · exact runsAlike_next h st (t := setPc t s) rfl
  · exact runsAlike_next h st (t := advance 2 s) rfl

theorem execJf_runsAlike (a b : Operand) (s : State) :
    RunsAlike h st s (execJf a b s) (execJf a b (withOutside h st s)) := by
  simp only [execJf, resolve_withOutside]
  refine runsAlike_orRaise h st s _ fun v => runsAlike_orRaise h st s _ fun t => ?_
  split
  · exact runsAlike_next h st (t := advance 2 s) rfl
  · exact runsAlike_next h st (t := setPc t s) rfl

theorem execHalt_runsAlike (s : State) : RunsAlike h st s (execHalt s) (execHalt (withOutside h st s)) :=
  runsAlike_update h st (fun u => { u with state := .halted }) (t := haltMachine (advance 0 s)) rfl

theorem execRet_runsAlike (s : State) : RunsAlike h st s (execRet s) (execRet (withOutside h st s)) := by
  unfold execRet
  rw [stack_withOutside]
  split
  · exact execHalt_runsAlike h st s
  · next t rest _ => exact runsAlike_next h st (t := setPc t (setStack rest s)) rfl

/-- No instruction reads the status record or the host side: with others it does the same. -/
theorem exec_runsAlike (i : Instr) (s : State) : RunsAlike h st s (exec i s) (exec i (withOutside h st s)) := by
  cases i with
  | halt => exact execHalt_runsAlike h st s
  | set a b => exact execSet_runsAlike h st a b s
  | push a => exact execPush_runsAlike h st a s
  | pop a => exact execPop_runsAlike h st a s
  | jmp a => exact execJmp_runsAlike h st a s
  | jt a b => exact execJt_runsAlike h st a b s
  | jf a b => exact execJf_runsAlike h st a b s
  | eq a b c | gt a b c | add a b c | mult a b c | mod a b c | and a b c | or a b c =>
    exact binaryAlu_runsAlike h st _ a b c s
  | not a b => exact execNot_runsAlike h st a b s
  | rmem a b => exact execRmem_runsAlike h st a b s
  | wmem a b => exact execWmem_runsAlike h st a b s
  | call a => exact execCall_runsAlike h st a s
  | ret => exact execRet_runsAlike h st s
  | out a => exact execOut_runsAlike h st a s
  | inp a => exact execIn_runsAlike h st a s
  | noop => exact runsAlike_next h st (t := advance 0 s) rfl

end TwoRuns

/-- With another breakpoint, FORCE and plan of the host an instruction answers the same next state with these in it. -/
theorem exec_withHostSide (en : Bool) (addr : Word) (force : Bool) (plan : List HostAction) {i : Instr} {s t : State}
    (ht : exec i s = .next t) :
    exec i (withHostSide en addr force plan s) = .next (withHostSide en addr force plan t) := by
  obtain ⟨u, st', hu, hu', hst⟩ := exec_runsAlike (withHostSide en addr force plan s) s.status i s
  obtain rfl := Host.Outcome.next.inj (ht.symm.trans hu)
  rw [hst rfl] at hu'
  exact hu'

/-- An instruction does the same whatever the host has pending. -/
theorem exec_withPending (plan : List HostAction) {i : Instr} {s t : State} (ht : exec i s = .next t) :
    exec i { s with pending := plan } = .next { t with pending := plan } := by
  obtain ⟨hen, haddr, hforce, -, -⟩ := exec_sameHostSide ht
  have hplan : withHostSide s.breakEn s.breakAddr s.force plan t = { t with pending := plan } := by
    rw [withHostSide, ← hen, ← haddr, ← hforce]
  rw [← hplan]
  exact exec_withHostSide s.breakEn s.breakAddr s.force plan ht

/-- The instruction at pc, with its fetch, does the same whatever the host has pending. -/
theorem executeAtPc_withPending (plan : List HostAction) {s t : State} (ht : executeAtPc s = .next t) :
    executeAtPc { s with pending := plan } = .next { t with pending := plan } := by
  have hfetch : fetch { s with pending := plan } = fetch s := rfl
  unfold executeAtPc at ht ⊢
  rw [hfetch]
  cases hf : fetch s with
  | error e =>
    rw [hf] at ht
    obtain rfl := Host.Outcome.next.inj ht
    rfl
  | ok i =>
    rw [hf] at ht
    exact exec_withPending plan ht

end Sys2Proof.Machine

namespace Sys2Proof.Proofs

open Sys2Proof.Machine Sys2Proof.Claims

/-- Settles O45: the frame of the host side, and the second run with another host side. -/
theorem noInstructionTouchesTheHostSide : Obligations.NoInstructionTouchesTheHostSide := by
  intro i s
  obtain ⟨t, ht⟩ := exec_next i s
  exact ⟨t, ht, exec_sameHostSide ht, fun en addr force plan => exec_withHostSide en addr force plan ht⟩

/-- Settles O60: the second run with another status record and the same host side. -/
theorem noInstructionReadsTheStatusRecord : Obligations.NoInstructionReadsTheStatusRecord := by
  intro i s st
  obtain ⟨t, st', ht, ht', -⟩ := exec_runsAlike s st i s
  rw [withOutside_of_sameHostSide st' (exec_sameHostSide ht)] at ht'
  exact ⟨t, st', ht, ht'⟩

end Sys2Proof.Proofs
end

section
/-! SUPPORT. How RUNNING is left: by an executed instruction, by the instruction at pc with its fetch, by a command of the
host, and by the step of the machine; and what a loaded image reads as. -/

namespace Sys2Proof.Machine

open Sys2Proof.Claims

/-! ### The instruction -/

/-- What an executed instruction makes of the status record. -/
theorem exec_status_cases {i : Instr} {s t : State} (h : exec i s = .next t) :
    (∃ code v, code ≠ .none ∧ t = faultedWith code v s) ∨
    ((∃ a, i = .inp a) ∧ s.input = [] ∧ t = pause .input s) ∨
    ((i = .halt ∨ (i = .ret ∧ s.stack = [])) ∧ t.status = { s.status with state := .halted }) ∨
    t.status = s.status := by
  rcases exec_next_cases h with ⟨e, he, rfl⟩ | ⟨a, hi, hin, rfl⟩ | heff
  · exact .inl ⟨e.code, e.value, he, rfl⟩
  · exact .inr (.inl ⟨⟨a, hi⟩, hin, rfl⟩)
  · rcases heff.status_cases with hst | ⟨hst, hi⟩
    · exact .inr (.inr (.inr hst))
    · exact .inr (.inr (.inl ⟨hi, hst⟩))

/-- What the instruction at pc, with its fetch, makes of the status record. -/
theorem executeAtPc_status_cases {s t : State} (h : executeAtPc s = .next t) :
    (∃ code v, code ≠ .none ∧ t = faultedWith code v s) ∨
    ((∃ a, fetch s = .ok (.inp a)) ∧ s.input = [] ∧ t = pause .input s) ∨
    ((fetch s = .ok .halt ∨ (fetch s = .ok .ret ∧ s.stack = [])) ∧ t.status = { s.status with state := .halted }) ∨
    t.status = s.status := by
  rcases executeAtPc_cases s with ⟨e, -, he, h'⟩ | ⟨i, u, hf, hu, h'⟩ <;>
    obtain rfl := Host.Outcome.next.inj (h.symm.trans h')
  · exact .inl ⟨e.code, e.value, he, rfl⟩
  · simpa only [hf, Except.ok.injEq] using exec_status_cases hu

/-! ### The host's command -/

/-- A command given in RUNNING is STOP, or RESET, or leaves the status record as it is. -/
theorem hostCommand_running_cases {c : HostCmd} {s t : State} (hr : s.status.state = .running)
    (h : hostCommand c s = .next t) :
    (c = .stop ∧ t = pause .host s) ∨ (∃ image, c = .reset image ∧ t = resetBlock image s) ∨ t.status = s.status := by
  cases c with
  | reset image => exact .inr (.inl ⟨image, rfl, (Host.Outcome.next.inj h).symm⟩)
  | run =>
    rcases hostCommand_run_next h with ⟨hp, -⟩ | rfl
    · simp [hr] at hp
    · exact .inr (.inr rfl)
  | step =>
    rcases hostCommand_step_next h with ⟨hp, -⟩ | ⟨hn, -⟩
    · simp [hr] at hp
    · exact absurd hr hn
  | stop => exact .inl ⟨rfl, (hostCommand_stop_next h).2⟩
  | breakAt | setReg | setPc | enqueue | snapshot | exit =>
    obtain rfl := Host.Outcome.next.inj h
    exact .inr (.inr rfl)

/-- RESET leaves the status record of a reset block, or that of a malformed image. -/
theorem resetBlock_status_cases (image : List Byte) (s : State) :
    (image.length % 2 = 0 ∧ image.length ≤ 65536 ∧ (resetBlock image s).status = Status.reset) ∨
    ((image.length % 2 = 1 ∨ 65536 < image.length) ∧ ∃ v, (resetBlock image s).status = malformedStatus v) := by
  cases hv : malformedValue image with
  | none =>
    obtain ⟨heven, hlen⟩ := (malformedValue_eq_none_iff image).1 hv
    exact .inl ⟨heven, hlen, by rw [resetBlock_wellFormed hv]; rfl⟩
  | some v =>
    have hbad : ¬ (image.length % 2 = 0 ∧ image.length ≤ 65536) := by simp [← malformedValue_eq_none_iff, hv]
    exact .inr ⟨by omega, v, by rw [resetBlock_malformed hv]⟩

/-! ### The step of the machine -/

/-- A step from RUNNING is the command of the host that is due, or a pause at a breakpoint, or the instruction at pc. -/
theorem step_running_cases {s t : State} (hr : s.status.state = .running) (h : step s = .next t) :
    (∃ c rest, s.pending = ⟨0, c⟩ :: rest ∧ hostCommand c { s with pending := rest } = .next t) ∨
    (NoneDue s ∧ s.force = false ∧ s.breakEn = true ∧ s.pc = s.breakAddr ∧
      t.status = (pause .breakpoint s).status) ∨
    (NoneDue s ∧ ∃ u, executeAtPc s = .next u ∧ t.status = u.status) := by
  rcases step_next_cases h with ⟨n, c, rest, hp, hn, hc⟩ | ⟨hwait, hb⟩
  · obtain rfl : n = 0 := hn.resolve_right (not_not.2 hr)
    exact .inl ⟨c, rest, hp, hc⟩
  · have hnone : NoneDue s := fun c rest hp => (hwait 0 c rest hp).1 rfl
    obtain ⟨plan, htick⟩ := tick_eq s
    rw [htick] at hb
    obtain ⟨-, ⟨hforce, hen, haddr, rfl⟩ | ⟨w, hw, rfl⟩⟩ := blockStep_next_cases hb
    · exact .inr (.inl ⟨hnone, hforce, hen, haddr, rfl⟩)
    · obtain ⟨u, hu⟩ := executeAtPc_next s
      obtain rfl := Host.Outcome.next.inj (hw.symm.trans (executeAtPc_withPending plan hu))
      exact .inr (.inr ⟨hnone, u, hu, rfl⟩)

/-! ### A loaded image -/

/-- A byte of a loaded image's memory is the image's, and zero after it (R242). -/
theorem readByte_loadImage (image : List Byte) (a : Nat) :
    readByte (loadImage image) a = image.getD a unlistedByte := by
  simp [loadImage, readByte_loadBytes]

/-- Word k of a loaded image is byte 2k + 256 * byte 2k+1 (R242). -/
theorem readWord_loadImage_toNat {image : List Byte} {k : Nat} {lo hi : Byte} (hlo : image[2 * k]? = some lo)
    (hhi : image[2 * k + 1]? = some hi) : (readWord (loadImage image) k).toNat = lo.toNat + 256 * hi.toNat := by
  simp [readWord, wordOfBytes_toNat, readByte_loadImage, hlo, hhi]

/-- The words after a loaded image are 0 (R242). -/
theorem readWord_loadImage_zero {image : List Byte} {k : Nat} (h : image.length ≤ 2 * k) :
    readWord (loadImage image) k = 0 := by
  have hlo : image[2 * k]? = none := List.getElem?_eq_none_iff.2 h
  have hhi : image[2 * k + 1]? = none := List.getElem?_eq_none_iff.2 (by omega)
  rw [← readWord_nil k]
  simp [readWord, readByte_loadImage, readByte, hlo, hhi]

/-- Every register of the reset state is 0 (R35). -/
theorem readReg_reset (r : Fin 8) : readReg State.reset r = 0 := by simp [readReg, State.reset]

end Sys2Proof.Machine

namespace Sys2Proof.Proofs

open Sys2Proof.Machine Sys2Proof.Claims

/-- Settles O39: the step is a command of the host that is due, a breakpoint pause, or the instruction at pc; each of them
leaves RUNNING in the ways of its status record. -/
theorem runningIsLeftOnlyAsTheTableSays : Obligations.RunningIsLeftOnlyAsTheTableSays := by
  intro s t hr h
  rcases step_running_cases hr h with ⟨c, rest, hp, hc⟩ | ⟨hnone, hforce, hen, haddr, hst⟩ | ⟨hnone, u, hu, hst⟩
  · rcases hostCommand_running_cases (s := { s with pending := rest }) hr hc with ⟨rfl, rfl⟩ | ⟨image, rfl, rfl⟩ | hst
    · exact ⟨nofun, fun _ => .inr (.inr (.inl ⟨rfl, rest, hp⟩)), nofun⟩
    · rcases resetBlock_status_cases image { s with pending := rest } with ⟨heven, hlen, hst⟩ | ⟨hbad, v, hst⟩ <;>
        rw [hst]
      · exact ⟨nofun, fun _ => .inr (.inr (.inr ⟨rfl, image, rest, hp, heven, hlen⟩)), nofun⟩
      · exact ⟨nofun, nofun, fun _ => .inr ⟨rfl, image, rest, hp, hbad⟩⟩
    · simp [hst, hr]
  · rw [hst]
    exact ⟨nofun, fun _ => .inr (.inl ⟨rfl, hnone, hforce, hen, haddr⟩), nofun⟩
  · rw [hst]
    rcases executeAtPc_status_cases hu with ⟨code, v, hcode, rfl⟩ | ⟨hf, hin, rfl⟩ | ⟨hf, hu'⟩ | hu'
    · exact ⟨nofun, nofun, fun _ => .inl ⟨hnone, code, v, hcode, hu, rfl⟩⟩
    · exact ⟨nofun, fun _ => .inl ⟨rfl, hnone, hin, hf⟩, nofun⟩
    · rw [hu']
      exact ⟨fun _ => ⟨hnone, hf⟩, nofun, nofun⟩
    · simp [hu', hr]

/-- Settles O59: the status record after an instruction is that of a fault, of a pause for input, of a halt, or as
before. -/
theorem instructionsLeaveRunningOnlyAsTheTableSays : Obligations.InstructionsLeaveRunningOnlyAsTheTableSays := by
  intro i s t hr h
  rcases exec_status_cases h with ⟨code, v, hcode, rfl⟩ | ⟨hi, hin, rfl⟩ | ⟨hi, hst⟩ | hst
  · exact ⟨nofun, nofun, fun _ => ⟨code, v, hcode, rfl⟩⟩
  · exact ⟨nofun, fun _ => ⟨hi, hin, rfl⟩, nofun⟩
  · rw [hst]
    exact ⟨fun _ => hi, nofun, nofun⟩
  · simp [hst, hr]

/-- Settles O40: a fault and a pause keep the stack, and so does every effect but those of the four instructions. -/
theorem onlyStackInstructionsReachTheStack : Obligations.OnlyStackInstructionsReachTheStack := by
  intro i s t h hne
  rcases exec_next_cases h with ⟨e, -, rfl⟩ | ⟨a, -, -, rfl⟩ | heff
  · exact absurd rfl hne
  · exact absurd rfl hne
  · rcases heff.stack_cases with hst | ⟨hpush | hcall, -⟩ | ⟨hpop | hret, -⟩
    · exact absurd hst hne
    · exact .inl hpush
    · exact .inr (.inr (.inl hcall))
    · exact .inr (.inl hpop)
    · exact .inr (.inr (.inr hret))

/-- Settles O42: a fault and a pause keep the registers, and an effect writes at most the register of its D operand. -/
theorem onlyTheDestinationRegisterChanges : Obligations.OnlyTheDestinationRegisterChanges := by
  intro i s t r h hne
  rcases exec_next_cases h with ⟨e, -, rfl⟩ | ⟨a, -, -, rfl⟩ | heff
  · exact absurd rfl hne
  · exact absurd rfl hne
  · exact heff.dstOperand_of_readReg_ne hne

/-- Settles O53: the command is given at once, and the image is loaded into a reset block. -/
theorem resetLoadsTheImage : Obligations.ResetLoadsTheImage := by
  intro s rest image hp heven hlen
  have hv : malformedValue image = none := (malformedValue_eq_none_iff image).2 ⟨heven, hlen⟩
  have hstep : step s = .next (resetBlock image { s with pending := rest }) := step_due hp (.inl rfl)
  rw [resetBlock_wellFormed hv] at hstep
  exact ⟨_, hstep, readReg_reset, rfl, rfl, rfl, rfl, rfl, rfl, rfl, rfl, rfl, rfl,
    fun _ _ _ => readWord_loadImage_toNat, fun _ => readWord_loadImage_zero⟩

/-- Settles O12: with nothing pending the step is the block's, which has none outside RUNNING. -/
theorem noStepOutsideRunning : Obligations.NoStepOutsideRunning := by
  intro s hp
  rw [step_pending_nil hp]
  exact ⟨fun h => by simp [blockStep, h], fun h => by simp [blockStep, h], fun h => by simp [blockStep, h]⟩

/-- Settles O55: the registers and the empty memory read 0, and every other field is as written in `State.reset`. -/
theorem resetStateHoldsTheResetValues : Obligations.ResetStateHoldsTheResetValues :=
  ⟨readReg_reset, rfl, rfl, rfl, rfl, readWord_nil, rfl, rfl, rfl, rfl, rfl, rfl, rfl, rfl⟩

end Sys2Proof.Proofs
end

section
/-! SUPPORT. What an instruction stores and loads: the words that its operands name, and that its effect changes no other
word of memory. -/

namespace Sys2Proof.Machine

open Sys2Proof.Claims

/-- Instruction i, executed in s, stores to word x: the D operand in memory range (R120), or the word that wmem's first
operand resolves to (R128). -/
def StoresAt (s : State) (i : Instr) (x : Nat) : Prop :=
  (∃ v : BitVec 15, dstOperand i = some (.literal v) ∧ x = v.toNat) ∨
  (∃ a b va, i = .wmem a b ∧ resolve s a = .ok va ∧ x = va.toNat)

/-- Instruction i, executed in s, loads word x: the one that rmem's address operand resolves to (R126). -/
def LoadsAt (s : State) (i : Instr) (x : Nat) : Prop :=
  ∃ a b v, i = .rmem a b ∧ resolve s b = .ok v ∧ x = v.toNat

/-! ### The word stored to -/

/-- An instruction without a D operand stores only if it is wmem. -/
theorem not_storesAt_of_no_dst {s : State} {i : Instr} (hd : dstOperand i = none) (hw : ∀ a b, i ≠ .wmem a b) (x : Nat) :
    ¬ StoresAt s i x := by
  rintro (⟨v, hv, -⟩ | ⟨a, b, va, hi, -⟩)
  · simp [hd] at hv
  · exact hw a b hi

/-- An instruction whose D operand is a register stores nothing. -/
theorem not_storesAt_of_register {s : State} {i : Instr} {r : Fin 8} (hi : dstOperand i = some (.register r)) (x : Nat) :
    ¬ StoresAt s i x := by
  rintro (⟨v, hv, -⟩ | ⟨a, b, va, rfl, -⟩)
  · simp [hi] at hv
  · simp [dstOperand, Instr.roles] at hi

/-- Writing the D operand's location writes the one memory word stored to, or leaves memory alone where none is. -/
theorem writeLoc_mem_cases {s u : State} {i : Instr} {a : Operand} {d : Loc} (hu : u.mem = s.mem)
    (hi : dstOperand i = some a) (hd : dest a = .ok d) (w : Word) :
    (∃ x w', StoresAt s i x ∧ x < 32768 ∧ (writeLoc d w u).mem = writeWord s.mem x w') ∨
    ((∀ x, ¬ StoresAt s i x) ∧ (writeLoc d w u).mem = s.mem) := by
  rcases dest_ok hd with ⟨r, rfl, rfl⟩ | ⟨v, rfl, rfl, hlt⟩
  · exact .inr ⟨not_storesAt_of_register hi, hu⟩
  · exact .inl ⟨v.toNat, w, .inl ⟨v, hi, rfl⟩, hlt, by rw [writeLoc_mem, writeMem_mem, hu]⟩

/-- An effect writes the one memory word stored to, or leaves memory alone where none is (R55, R107). -/
theorem Effect.mem_cases {i : Instr} {s t : State} (h : Effect s i t) :
    (∃ x w, StoresAt s i x ∧ x < 32768 ∧ t.mem = writeWord s.mem x w) ∨
    ((∀ x, ¬ StoresAt s i x) ∧ t.mem = s.mem) := by
  cases h with
  | write v n hi hd => exact writeLoc_mem_cases rfl hi hd v
  | @pop a d v rest hd => exact writeLoc_mem_cases (u := setStack rest s) (i := .pop a) rfl rfl hd v
  | @inp a d v rest hd => exact writeLoc_mem_cases (u := setInput rest s) (i := .inp a) rfl rfl hd v
  | wmem ha _ hlt => exact .inl ⟨_, _, .inr ⟨_, _, _, rfl, ha, rfl⟩, hlt, rfl⟩
  | jt | jf => exact .inr ⟨not_storesAt_of_no_dst rfl (by simp), by split <;> rfl⟩
  | _ => exact .inr ⟨not_storesAt_of_no_dst rfl (by simp), rfl⟩

/-- A byte that reads differently after a word is written is one of that word's two. -/
theorem half_eq_of_readByte_writeWord_ne {m : Memory} {x k : Nat} {w : Word}
    (h : readByte (writeWord m x w) k ≠ readByte m k) : k / 2 = x := by
  by_contra hk
  have hhigh : k ≠ 2 * x + 1 := by omega
  have hlow : k ≠ 2 * x := by omega
  exact h (by rw [readByte_writeWord, if_neg hhigh, if_neg hlow])

/-- An executed instruction changes no byte but those of the word it stores to, which lies in memory. -/
theorem exec_storesAt_of_readByte_ne {i : Instr} {s t : State} (h : exec i s = .next t) {k : Nat}
    (hne : readByte t.mem k ≠ readByte s.mem k) : StoresAt s i (k / 2) ∧ k / 2 < 32768 := by
  rcases exec_next_cases h with ⟨e, -, rfl⟩ | ⟨a, -, -, rfl⟩ | heff
  · exact absurd rfl hne
  · exact absurd rfl hne
  · rcases heff.mem_cases with ⟨x, w, hx, hlt, hmem⟩ | ⟨-, hmem⟩
    · rw [hmem] at hne
      rw [half_eq_of_readByte_writeWord_ne hne]
      exact ⟨hx, hlt⟩
    · exact absurd (by rw [hmem]) hne

/-! ### The word loaded -/

/-- An rmem that raises nothing loads a word that lies in memory (R127). -/
theorem exec_rmem_index_lt {a b : Operand} {s t : State} {v : Word} (h : exec (.rmem a b) s = .next t)
    (hf : t.status.state ≠ .faulted) (hb : resolve s b = .ok v) : v.toNat < 32768 := by
  by_contra hge
  have hidx : memIndex v = .error (invalidAddress v) := if_neg hge
  simp only [exec, execRmem, hb, hidx, orRaise_ok, orRaise_error] at h
  rcases orRaise_cases s (dest a) _ with ⟨e, -, h'⟩ | ⟨d, -, h'⟩ <;>
    obtain rfl := Host.Outcome.next.inj (h.symm.trans h') <;> exact hf rfl

end Sys2Proof.Machine

namespace Sys2Proof.Proofs

open Sys2Proof.Machine

/-- Settles O43: a byte that changes lies in the word that the instruction stores to. -/
theorem onlyTheDestinationWordChanges : Obligations.OnlyTheDestinationWordChanges := by
  intro i s t k h hne
  obtain ⟨hdst | ⟨a, b, va, hi, ha, hk⟩, hlt⟩ := exec_storesAt_of_readByte_ne h hne
  · exact .inl hdst
  · exact .inr ⟨a, b, va, hi, ha, hk ▸ hlt, hk⟩

end Sys2Proof.Proofs
end

section
/-! SUPPORT. The memory port: the addresses of a step's instruction-word reads, the data transactions of an instruction
by the words it loads and stores, and when a step has any. -/

namespace Sys2Proof.Machine

open Sys2Proof.Claims

/-! ### Instruction-word reads -/

/-- The addresses of the instruction-word reads (R91, R93): none for a pc outside memory, else the opcode word's and its
operand words' as far as they are in memory. -/
def instructionAddresses (s : State) : List Nat :=
  if s.pc.toNat < Config.memWords then
    (List.range' s.pc.toNat (1 + (operandCount (readWord s.mem s.pc.toNat)).getD 0)).takeWhile
      (fun a => decide (a < Config.memWords))
  else []

theorem fetchReads_eq_map (s : State) : fetchReads s = (instructionAddresses s).map .read := by
  unfold fetchReads instructionAddresses
  split <;> rfl

theorem instructionAddresses_lt {s : State} {x : Nat} (h : x ∈ instructionAddresses s) : x < 32768 := by
  unfold instructionAddresses at h
  split at h
  · simpa using List.mem_takeWhile_imp h
  · simp at h

/-- An instruction has at most three operands (R70). -/
theorem operands_length_le (i : Instr) : i.operands.length ≤ 3 := by
  cases i <;> simp [Instr.operands]

/-- An opcode word asks for at most three operand words. -/
theorem operandCount_getD_le (op : Word) : (operandCount op).getD 0 ≤ 3 := by
  unfold operandCount
  split
  · next i _ _ => exact operands_length_le i
  · exact Nat.zero_le 3

theorem instructionAddresses_length_le (s : State) : (instructionAddresses s).length ≤ 4 := by
  unfold instructionAddresses
  split
  · have hle := (List.takeWhile_sublist (fun a => decide (a < Config.memWords))
      (l := List.range' s.pc.toNat (1 + (operandCount (readWord s.mem s.pc.toNat)).getD 0))).length_le
    have hcount := operandCount_getD_le (readWord s.mem s.pc.toNat)
    rw [List.length_range'] at hle
    omega
  · exact Nat.zero_le 4

/-- An opcode word from 22 on decodes to no instruction, whatever follows it (R76). -/
theorem decodeWords_illegal {op : Word} (h : 22 ≤ op.toNat) (ws : List Word) :
    decodeWords (op :: ws) = .error (.illegalOpcode op) := by
  obtain ⟨n, hn⟩ := Nat.exists_eq_add_of_le' h
  simp only [decodeWords, hn]

/-- An opcode word from 22 on asks for no operand words. -/
theorem operandCount_illegal {op : Word} (h : 22 ≤ op.toNat) : operandCount op = none := by
  rw [operandCount, decodeWords_illegal h]

/-- An opcode word of the table asks for as many operand words as its row has roles (R73, R79). -/
theorem operandCount_tableRows {op : Word} {mn : String} {roles : List Role} (h : (op, mn, roles) ∈ tableRows) :
    operandCount op = some roles.length := by
  have hall : ∀ row ∈ tableRows, operandCount row.1 = some row.2.2.length := by decide
  exact hall _ h

/-- The leading addresses of a range below a bound are all its addresses below that bound. -/
theorem takeWhile_range'_lt (p n stop : Nat) :
    (List.range' p n).takeWhile (fun a => decide (a < stop)) = (List.range' p n).filter (fun a => decide (a < stop)) := by
  induction n generalizing p with
  | zero => rfl
  | succ n ih =>
    by_cases hp : p < stop
    · simp [List.range'_succ, hp, ih]
    · have hnone : (List.range' (p + 1) n).filter (fun a => decide (a < stop)) = [] := by
        simp only [List.filter_eq_nil_iff, List.mem_range'_1, decide_eq_true_eq]
        omega
      simp [List.range'_succ, hp, hnone]

theorem instructionWordsAt_instructionAddresses (s : State) : InstructionWordsAt s (instructionAddresses s) := by
  refine ⟨fun hpc => if_neg (Nat.not_lt.2 hpc), fun hpc hop => ?_, fun op mn roles hrow hpc hop => ?_⟩
  · rw [instructionAddresses, if_pos hpc, operandCount_illegal hop]
    simp [hpc]
  · rw [instructionAddresses, if_pos hpc, hop, operandCount_tableRows hrow, takeWhile_range'_lt,
      List.range'_eq_map_range, Option.getD_some]

/-! ### Data transactions -/

/-- The data reads of an instruction: the word it loads, if any. -/
theorem dataReads_eq_map (i : Instr) (s : State) :
    ∃ reads : List Nat, dataReads i s = reads.map .read ∧ reads.length ≤ 1 ∧ ∀ x, x ∈ reads ↔ LoadsAt s i x := by
  cases i with
  | rmem a b =>
    cases hb : resolve s b with
    | ok v => exact ⟨[v.toNat], by simp [dataReads, hb], Nat.le_refl 1, by simp [LoadsAt, hb]⟩
    | error e => exact ⟨[], by simp [dataReads, hb], Nat.zero_le 1, by simp [LoadsAt, hb]⟩
  | _ => exact ⟨[], rfl, Nat.zero_le 1, by simp [LoadsAt]⟩

/-- The write of an instruction that stores to word x is of that word, as it reads afterwards. -/
theorem dataWrites_of_storesAt {s : State} {i : Instr} {x : Nat} (h : StoresAt s i x) (t : State) :
    dataWrites i s t = [.write x (readWord t.mem x)] := by
  rcases h with ⟨v, hv, rfl⟩ | ⟨a, b, va, rfl, ha, rfl⟩
  · unfold dataWrites
    split
    · simp [dstOperand, Instr.roles] at hv
    · simp [hv]
  · simp [dataWrites, ha]

/-- An instruction that stores nothing has no write. -/
theorem dataWrites_of_not_storesAt {s : State} {i : Instr} (h : ∀ x, ¬ StoresAt s i x) (t : State) :
    dataWrites i s t = [] := by
  unfold dataWrites
  split
  · next a b =>
    split
    · next va ha => exact absurd (.inr ⟨a, b, va, rfl, ha, rfl⟩) (h va.toNat)
    · rfl
  · split
    · next v hv => exact absurd (.inl ⟨v, hv, rfl⟩) (h v.toNat)
    · rfl

/-- An instruction stores to at most one word. -/
theorem StoresAt.unique {s : State} {i : Instr} {x y : Nat} (hx : StoresAt s i x) (hy : StoresAt s i y) : x = y := by
  have h := (dataWrites_of_storesAt hx s).symm.trans (dataWrites_of_storesAt hy s)
  simp only [List.cons.injEq, MemAccess.write.injEq] at h
  exact h.1.1

/-- The writes of an instruction: the word it stores to, if any. -/
theorem dataWrites_eq_map (i : Instr) (s t : State) :
    ∃ writes : List (Nat × Word), dataWrites i s t = writes.map (fun w => .write w.1 w.2) ∧ writes.length ≤ 1 ∧
      ∀ x, x ∈ writes.map Prod.fst ↔ StoresAt s i x := by
  by_cases h : ∃ x, StoresAt s i x
  · obtain ⟨x, hx⟩ := h
    refine ⟨[(x, readWord t.mem x)], dataWrites_of_storesAt hx t, Nat.le_refl 1, fun y => ?_⟩
    simp only [List.map_cons, List.map_nil, List.mem_singleton]
    exact ⟨fun hy => hy ▸ hx, fun hy => hy.unique hx⟩
  · have hnone := not_exists.1 h
    exact ⟨[], dataWrites_of_not_storesAt hnone t, Nat.zero_le 1, fun y => by simp [hnone y]⟩

/-! ### What the transactions do to memory -/

/-- Reads leave the memory behind the port alone. -/
theorem foldl_apply_reads (addresses : List Nat) (m : Memory) :
    (addresses.map MemAccess.read).foldl MemAccess.apply m = m := by
  induction addresses with
  | nil => rfl
  | cons a rest ih => exact ih

/-- The write of an effect, done to the memory before it, gives the memory after it. -/
theorem Effect.foldl_dataWrites {i : Instr} {s t : State} (h : Effect s i t) :
    (dataWrites i s t).foldl MemAccess.apply s.mem = t.mem := by
  rcases h.mem_cases with ⟨x, w, hx, -, hmem⟩ | ⟨hnone, hmem⟩
  · rw [dataWrites_of_storesAt hx, hmem, readWord_writeWord_same]
    rfl
  · rw [dataWrites_of_not_storesAt hnone, hmem]
    rfl

end Sys2Proof.Machine

namespace Sys2Proof.Claims

open Sys2Proof.Machine

/-! ### Steps that commit -/

/-- What a step commits is the instruction at pc and the state it ends in. -/
theorem Commits.eq_of_exec {s t u : State} {i j : Instr} (hc : Commits s j u) (hf : fetch s = .ok i)
    (ht : exec i s = .next t) : j = i ∧ u = t := by
  obtain ⟨hfj, huj, -⟩ := hc
  obtain rfl := Except.ok.inj (hf.symm.trans hfj)
  exact ⟨rfl, Host.Outcome.next.inj (huj.symm.trans ht)⟩

/-- The instruction that a step commits, and the state it ends in, are determined. -/
theorem Commits.unique {s t u : State} {i j : Instr} (hi : Commits s i t) (hj : Commits s j u) : j = i ∧ u = t := by
  obtain ⟨hf, ht, -⟩ := hi
  exact hj.eq_of_exec hf ht

/-- An instruction that commits has its effect. -/
theorem Commits.effect {s t : State} {i : Instr} (h : Commits s i t) : Effect s i t := by
  obtain ⟨-, ht, hfault, hpause⟩ := h
  rcases exec_next_cases ht with ⟨e, -, rfl⟩ | ⟨a, -, -, rfl⟩ | heff
  · exact absurd rfl hfault
  · exact absurd rfl hpause
  · exact heff

/-- A step that commits has the data transactions of its instruction. -/
theorem Commits.stepAccesses_eq {s t : State} {i : Instr} (h : Commits s i t) :
    stepAccesses s = fetchReads s ++ (dataReads i s ++ dataWrites i s t) := by
  obtain ⟨hf, ht, hfault, hpause⟩ := h
  simp [stepAccesses, dataAccesses, committed, hf, ht, hfault, hpause]

/-- In a step that commits, the data read is of the word its instruction loads. -/
theorem Commits.readsDataAt_iff {s t : State} {i : Instr} (h : Commits s i t) (x : Nat) :
    ReadsDataAt s x ↔ LoadsAt s i x := by
  constructor
  · rintro ⟨a, b, v, u, hu, hload⟩
    exact ⟨a, b, v, (h.unique hu).1.symm, hload⟩
  · rintro ⟨a, b, v, rfl, hload⟩
    exact ⟨a, b, v, t, h, hload⟩

/-- In a step that commits, the write is of the word its instruction stores to. -/
theorem Commits.writesWordAt_iff {s t : State} {i : Instr} (h : Commits s i t) (x : Nat) :
    WritesWordAt s x ↔ StoresAt s i x := by
  constructor
  · rintro ⟨j, u, hu, hstore⟩
    obtain ⟨rfl, rfl⟩ := h.unique hu
    exact hstore
  · exact fun hstore => ⟨i, t, h, hstore⟩

/-- The data word that a step reads lies in memory. -/
theorem ReadsDataAt.lt {s : State} {x : Nat} (h : ReadsDataAt s x) : x < 32768 := by
  obtain ⟨a, b, v, t, ⟨-, ht, hfault, -⟩, hb, rfl⟩ := h
  exact exec_rmem_index_lt ht hfault hb

/-- The word that a step writes lies in memory. -/
theorem WritesWordAt.lt {s : State} {x : Nat} (h : WritesWordAt s x) : x < 32768 := by
  obtain ⟨i, t, hc, hx⟩ := h
  rcases hc.effect.mem_cases with ⟨y, w, hy, hlt, -⟩ | ⟨hnone, -⟩
  · rwa [StoresAt.unique hx hy]
  · exact absurd hx (hnone x)

/-- A running block's step either commits an instruction, or leaves memory as it is and has no data transaction: its fetch
or its instruction raises, or it pauses (R10, R52). -/
theorem commits_or_keeps_mem {s t : State} (hr : s.status.state = .running) (h : executeAtPc s = .next t) :
    (∃ i, Commits s i t) ∨ ((∀ i u, ¬ Commits s i u) ∧ t.mem = s.mem ∧ stepAccesses s = fetchReads s) := by
  rcases executeAtPc_cases s with ⟨e, hf, -, h'⟩ | ⟨i, u, hf, hu, h'⟩ <;>
    obtain rfl := Host.Outcome.next.inj (h.symm.trans h')
  · refine .inr ⟨?_, rfl, by simp [stepAccesses, hf]⟩
    rintro i u ⟨hfi, -⟩
    simp [hf] at hfi
  · by_cases hc : t.status.state ≠ .faulted ∧ t.status.state ≠ .paused
    · exact .inl ⟨i, hf, hu, hc⟩
    · refine .inr ⟨?_, ?_, by simp [stepAccesses, dataAccesses, committed, hf, hu, hc]⟩
      · intro j u hj
        obtain ⟨rfl, rfl⟩ := hj.eq_of_exec hf hu
        obtain ⟨-, -, hst⟩ := hj
        exact hc hst
      · rcases exec_next_cases hu with ⟨e, -, rfl⟩ | ⟨a, -, -, rfl⟩ | heff
        · rfl
        · rfl
        · rcases heff.status_cases with hst | ⟨hst, -⟩ <;> simp [hst, hr] at hc

/-- An enabled block's step executes the instruction at pc and clears FORCE (R90, R224). -/
theorem Enabled.step_eq {s t : State} (h : Enabled s) (ht : executeAtPc s = .next t) : step s = .next (endStep t) := by
  obtain ⟨hr, hp, hb⟩ := h
  rw [step_pending_nil hp, blockStep_running hr hb, ht]
  rfl

/-! ### The transactions of a step -/

/-- The transactions of a running block's step, in order, each at the addresses the spec gives (R52, R91, R93). -/
theorem stepAccesses_eq_map {s : State} (hr : s.status.state = .running) :
    ∃ (reads : List Nat) (writes : List (Nat × Word)),
      stepAccesses s =
        (instructionAddresses s).map .read ++ reads.map .read ++ writes.map (fun w => .write w.1 w.2) ∧
      reads.length ≤ 1 ∧ writes.length ≤ 1 ∧
      (∀ x, x ∈ reads ↔ ReadsDataAt s x) ∧ (∀ x, x ∈ writes.map Prod.fst ↔ WritesWordAt s x) := by
  obtain ⟨t, ht⟩ := executeAtPc_next s
  rcases commits_or_keeps_mem hr ht with ⟨i, hc⟩ | ⟨hnone, -, hacc⟩
  · obtain ⟨reads, hreads, hrlen, hrmem⟩ := dataReads_eq_map i s
    obtain ⟨writes, hwrites, hwlen, hwmem⟩ := dataWrites_eq_map i s t
    refine ⟨reads, writes, ?_, hrlen, hwlen, fun x => ?_, fun x => ?_⟩
    · rw [hc.stepAccesses_eq, fetchReads_eq_map, hreads, hwrites, List.append_assoc]
    · rw [hrmem, hc.readsDataAt_iff]
    · rw [hwmem, hc.writesWordAt_iff]
  · refine ⟨[], [], ?_, Nat.zero_le 1, Nat.zero_le 1, fun x => ?_, fun x => ?_⟩
    · rw [hacc, fetchReads_eq_map, List.map_nil, List.map_nil, List.append_nil, List.append_nil]
    · simp [ReadsDataAt, hnone]
    · simp [WritesWordAt, hnone]

/-- Every transaction of a running block's step is inside memory (R52). -/
theorem stepAccesses_address_lt {s : State} (hr : s.status.state = .running) {x : MemAccess} (hx : x ∈ stepAccesses s) :
    x.address < 32768 := by
  obtain ⟨reads, writes, hacc, -, -, hreads, hwrites⟩ := stepAccesses_eq_map hr
  rw [hacc, List.mem_append, List.mem_append] at hx
  rcases hx with (hx | hx) | hx <;> obtain ⟨y, hy, rfl⟩ := List.mem_map.1 hx
  · exact instructionAddresses_lt hy
  · exact ((hreads y).1 hy).lt
  · exact ((hwrites y.1).1 (List.mem_map_of_mem hy)).lt

/-- The transactions of a running block's step account for memory. -/
theorem foldl_stepAccesses {s t : State} (hr : s.status.state = .running) (ht : executeAtPc s = .next t) :
    (stepAccesses s).foldl MemAccess.apply s.mem = t.mem := by
  rcases commits_or_keeps_mem hr ht with ⟨i, hc⟩ | ⟨-, hmem, hacc⟩
  · obtain ⟨reads, hreads, -⟩ := dataReads_eq_map i s
    rw [hc.stepAccesses_eq, fetchReads_eq_map, hreads, List.foldl_append, List.foldl_append, foldl_apply_reads,
      foldl_apply_reads, hc.effect.foldl_dataWrites]
  · rw [hacc, fetchReads_eq_map, foldl_apply_reads, hmem]

end Sys2Proof.Claims

namespace Sys2Proof.Proofs

open Sys2Proof.Machine Sys2Proof.Claims

/-- Settles O47: a step commits an instruction, whose data transactions are the words it loads and stores, or it has
instruction-word reads only and keeps memory. -/
theorem memoryPortAccountsForEachStep : Obligations.MemoryPortAccountsForEachStep := by
  intro s hen
  have hr : s.status.state = .running := hen.1
  obtain ⟨t, ht⟩ := executeAtPc_next s
  obtain ⟨reads, writes, hacc, hrlen, hwlen, hreads, hwrites⟩ := stepAccesses_eq_map hr
  refine ⟨⟨endStep t, hen.step_eq ht, fun k => ?_⟩, fun _ => stepAccesses_address_lt hr,
    instructionAddresses s, reads, writes, hacc, instructionAddresses_length_le s, hrlen, hwlen,
    instructionWordsAt_instructionAddresses s, hreads, hwrites⟩
  rw [foldl_stepAccesses hr ht]
  rfl

end Sys2Proof.Proofs
end

section
/-! SUPPORT. The opcode table in both directions (30_encoding.md R70 to R79): what the decoder answers on the words of an
instruction, and everything it can answer on an opcode word with any words after it. -/

namespace Sys2Proof

open Sys2Proof.Claims

/-! ### From the instruction to its words -/

theorem Instr.wf_iff (i : Instr) : i.wf = true ↔ ∀ o ∈ i.operands, o.wf = true := List.all_eq_true

/-- Format F1: the word of a well-formed operand decodes to that operand. -/
theorem decodeWords_encodedF1 {mk : Operand → Instr} {op : Word} (h : EncodedF1 mk op) {a : Operand}
    (ha : a.wf = true) (rest : List Word) : decodeWords (op :: a.toWord :: rest) = .ok (mk a, rest) := by
  rw [h, Operand.ofWord_toWord ha]

/-- Format F2: the words of well-formed operands decode to those operands. -/
theorem decodeWords_encodedF2 {mk : Operand → Operand → Instr} {op : Word} (h : EncodedF2 mk op) {a b : Operand}
    (ha : a.wf = true) (hb : b.wf = true) (rest : List Word) :
    decodeWords (op :: a.toWord :: b.toWord :: rest) = .ok (mk a b, rest) := by
  rw [h, Operand.ofWord_toWord ha, Operand.ofWord_toWord hb]

/-- Format F3: the words of well-formed operands decode to those operands. -/
theorem decodeWords_encodedF3 {mk : Operand → Operand → Operand → Instr} {op : Word} (h : EncodedF3 mk op)
    {a b c : Operand} (ha : a.wf = true) (hb : b.wf = true) (hc : c.wf = true) (rest : List Word) :
    decodeWords (op :: a.toWord :: b.toWord :: c.toWord :: rest) = .ok (mk a b c, rest) := by
  rw [h, Operand.ofWord_toWord ha, Operand.ofWord_toWord hb, Operand.ofWord_toWord hc]

/-- The words of a well-formed instruction decode to it, and the words after them are left (R70, R72). -/
theorem decodeWords_encode_append {i : Instr} (h : i.wf = true) (rest : List Word) :
    decodeWords (encode i ++ rest) = .ok (i, rest) := by
  have hops := i.wf_iff.1 h
  cases i with
  | halt | ret | noop => rfl
  | push a | pop a | jmp a | call a | out a | inp a =>
    exact decodeWords_encodedF1 (fun _ _ => rfl) (hops a (by simp [Instr.operands])) rest
  | set a b | jt a b | jf a b | not a b | rmem a b | wmem a b =>
    exact decodeWords_encodedF2 (fun _ _ _ => rfl) (hops a (by simp [Instr.operands]))
      (hops b (by simp [Instr.operands])) rest
  | eq a b c | gt a b c | add a b c | mult a b c | mod a b c | and a b c | or a b c =>
    exact decodeWords_encodedF3 (fun _ _ _ _ => rfl) (hops a (by simp [Instr.operands]))
      (hops b (by simp [Instr.operands])) (hops c (by simp [Instr.operands])) rest

/-! ### From the row to the instruction -/

/-- The row of the opcode table that an instruction belongs to (R73). -/
def Instr.row (i : Instr) : Word × String × List Role := (i.opcode, i.mnemonic, i.roles)

/-- Each row of the opcode table is the row of an instruction: the one the decoder reads from its opcode word and zeros. -/
theorem exists_row_eq_of_mem_tableRows {r : Word × String × List Role} (h : r ∈ tableRows) : ∃ i : Instr, i.row = r := by
  have hall : ∀ r ∈ tableRows, (decodeTableWord 64 r.1.toNat).map Instr.row = some r := by decide
  obtain ⟨i, -, hi⟩ := Option.map_eq_some_iff.1 (hall r h)
  exact ⟨i, hi⟩

/-- An instruction has as many roles as operands (R73). -/
theorem Instr.roles_length (i : Instr) : i.roles.length = i.operands.length := by
  cases i <;> rfl

/-- The opcode word of an instruction, followed by any operand words, as many as it has operands, decodes to an instruction
of the same row with the classes of those words as its operands (R72, R73). -/
theorem decodeWords_opcode_append (i : Instr) {ws : List Word} (h : ws.length = i.operands.length) (rest : List Word) :
    ∃ j : Instr, decodeWords (i.opcode :: (ws ++ rest)) = .ok (j, rest) ∧ j.row = i.row ∧
      j.operands = ws.map Operand.ofWord := by
  cases i with
  | halt | ret | noop =>
    obtain rfl := List.length_eq_zero_iff.1 h
    exact ⟨_, rfl, rfl, rfl⟩
  | push a | pop a | jmp a | call a | out a | inp a =>
    obtain ⟨wa, rfl⟩ := List.length_eq_one_iff.1 h
    exact ⟨_, rfl, rfl, rfl⟩
  | set a b | jt a b | jf a b | not a b | rmem a b | wmem a b =>
    obtain ⟨wa, wb, rfl⟩ := List.length_eq_two.1 h
    exact ⟨_, rfl, rfl, rfl⟩
  | eq a b c | gt a b c | add a b c | mult a b c | mod a b c | and a b c | or a b c =>
    obtain ⟨wa, wb, wc, rfl⟩ := List.length_eq_three.1 h
    exact ⟨_, rfl, rfl, rfl⟩

/-! ### From the words to the instruction -/

/-- The instruction i is of opcode op, its operands are the classes of the first words of ws, and rest is left (R70, R72). -/
def ReadFrom (op : Word) (ws : List Word) (i : Instr) (rest : List Word) : Prop :=
  i.opcode = op ∧ ∃ as : List Word, ws = as ++ rest ∧ i.operands = as.map Operand.ofWord

/-- An instruction that was read is well formed: the class of a word is (R72). -/
theorem ReadFrom.wf {op : Word} {ws rest : List Word} {i : Instr} (h : ReadFrom op ws i rest) : i.wf = true := by
  obtain ⟨-, as, -, hops⟩ := h
  simp [Instr.wf_iff, hops, Operand.ofWord_wf]

/-- The words that an instruction was read from are its encoding: an operand word is recovered from its class (R72). -/
theorem ReadFrom.cons_eq {op : Word} {ws rest : List Word} {i : Instr} (h : ReadFrom op ws i rest) :
    op :: ws = encode i ++ rest := by
  obtain ⟨rfl, as, rfl, hops⟩ := h
  have hid : Operand.toWord ∘ Operand.ofWord = id := funext Operand.toWord_ofWord
  simp [encode, hops, hid]

/-- Everything a decoder can answer for the words after an opcode word of the table: an instruction read from them, or the
first word that is missing. -/
def ReadsOrMisses (op : Word) (ws : List Word) (x : Except DecodeError (Instr × List Word)) : Prop :=
  (∃ i rest, x = .ok (i, rest) ∧ ReadFrom op ws i rest) ∨ ∃ k, x = .error (.missingWord k)

/-- Format F0 reads no operand word. -/
theorem readsOrMisses_F0 {i : Instr} {op : Word} (hi : i.opcode = op ∧ i.operands = []) (ws : List Word) :
    ReadsOrMisses op ws (.ok (i, ws)) :=
  .inl ⟨i, ws, rfl, hi.1, [], rfl, hi.2⟩

/-- Format F1 reads one operand word or misses it. -/
theorem decodeF1_readsOrMisses {mk : Operand → Instr} {op : Word}
    (hmk : ∀ a, (mk a).opcode = op ∧ (mk a).operands = [a]) (ws : List Word) :
    ReadsOrMisses op ws (decodeF1 mk ws) := by
  match ws with
  | [] => exact .inr ⟨1, rfl⟩
  | a :: rest =>
    obtain ⟨hop, hops⟩ := hmk (.ofWord a)
    exact .inl ⟨_, rest, decodeF1_cons mk a rest, hop, [a], rfl, hops⟩

/-- Format F2 reads two operand words or misses one. -/
theorem decodeF2_readsOrMisses {mk : Operand → Operand → Instr} {op : Word}
    (hmk : ∀ a b, (mk a b).opcode = op ∧ (mk a b).operands = [a, b]) (ws : List Word) :
    ReadsOrMisses op ws (decodeF2 mk ws) := by
  match ws with
  | [] => exact .inr ⟨1, rfl⟩
  | [_] => exact .inr ⟨2, rfl⟩
  | a :: b :: rest =>
    obtain ⟨hop, hops⟩ := hmk (.ofWord a) (.ofWord b)
    exact .inl ⟨_, rest, decodeF2_cons mk a b rest, hop, [a, b], rfl, hops⟩

/-- Format F3 reads three operand words or misses one. -/
theorem decodeF3_readsOrMisses {mk : Operand → Operand → Operand → Instr} {op : Word}
    (hmk : ∀ a b c, (mk a b c).opcode = op ∧ (mk a b c).operands = [a, b, c]) (ws : List Word) :
    ReadsOrMisses op ws (decodeF3 mk ws) := by
  match ws with
  | [] => exact .inr ⟨1, rfl⟩
  | [_] => exact .inr ⟨2, rfl⟩
  | [_, _] => exact .inr ⟨3, rfl⟩
  | a :: b :: c :: rest =>
    obtain ⟨hop, hops⟩ := hmk (.ofWord a) (.ofWord b) (.ofWord c)
    exact .inl ⟨_, rest, decodeF3_cons mk a b c rest, hop, [a, b, c], rfl, hops⟩

/-- Every opcode word below 22 is the opcode of an instruction (R73). -/
theorem exists_opcode_eq {op : Word} (h : op.toNat < 22) : ∃ i : Instr, i.opcode = op := by
  have hall : ∀ n < 22, ∃ r ∈ tableRows, r.1.toNat = n := by decide
  obtain ⟨r, hr, hn⟩ := hall _ h
  obtain ⟨i, rfl⟩ := exists_row_eq_of_mem_tableRows hr
  exact ⟨i, BitVec.eq_of_toNat_eq hn⟩

/-- On an opcode word of the table the decoder reads an instruction of that opcode or misses a word of it. -/
theorem decodeWords_readsOrMisses (i : Instr) (ws : List Word) :
    ReadsOrMisses i.opcode ws (decodeWords (i.opcode :: ws)) := by
  cases i with
  | halt | ret | noop => exact readsOrMisses_F0 ⟨rfl, rfl⟩ ws
  | push a | pop a | jmp a | call a | out a | inp a =>
    refine decodeF1_readsOrMisses (fun _ => ?_) ws
    exact ⟨rfl, rfl⟩
  | set a b | jt a b | jf a b | not a b | rmem a b | wmem a b =>
    refine decodeF2_readsOrMisses (fun _ _ => ?_) ws
    exact ⟨rfl, rfl⟩
  | eq a b c | gt a b c | add a b c | mult a b c | mod a b c | and a b c | or a b c =>
    refine decodeF3_readsOrMisses (fun _ _ _ => ?_) ws
    exact ⟨rfl, rfl⟩

/-- Everything the decoder can answer on an opcode word: for one of the table it reads an instruction or misses a word, and
any other it calls illegal (R73, R76). -/
theorem decodeWords_cons_cases (op : Word) (ws : List Word) :
    (op.toNat < 22 ∧ ReadsOrMisses op ws (decodeWords (op :: ws))) ∨
    (22 ≤ op.toNat ∧ decodeWords (op :: ws) = .error (.illegalOpcode op)) := by
  rcases Nat.lt_or_ge op.toNat 22 with h | h
  · obtain ⟨i, rfl⟩ := exists_opcode_eq h
    exact .inl ⟨h, decodeWords_readsOrMisses i ws⟩
  · exact .inr ⟨h, Machine.decodeWords_illegal h ws⟩

/-- What decodes was read from the words after an opcode word. -/
theorem decodeWords_ok {ws rest : List Word} {i : Instr} (h : decodeWords ws = .ok (i, rest)) :
    ∃ op tail, ws = op :: tail ∧ ReadFrom op tail i rest := by
  cases ws with
  | nil => cases h
  | cons op tail =>
    rcases decodeWords_cons_cases op tail with ⟨-, ⟨j, rest', hj, hread⟩ | ⟨k, hk⟩⟩ | ⟨-, hill⟩
    · cases hj.symm.trans h
      exact ⟨op, tail, rfl, hread⟩
    · cases hk.symm.trans h
    · cases hill.symm.trans h

/-- An opcode word is called illegal exactly when it is 22 or more, whatever follows it (R76). -/
theorem decodeWords_illegal_iff (op : Word) (ws : List Word) :
    decodeWords (op :: ws) = .error (.illegalOpcode op) ↔ 22 ≤ op.toNat := by
  refine ⟨fun h => ?_, fun h => Machine.decodeWords_illegal h ws⟩
  rcases decodeWords_cons_cases op ws with ⟨-, ⟨j, rest, hj, -⟩ | ⟨k, hk⟩⟩ | ⟨hge, -⟩
  · cases hj.symm.trans h
  · cases hk.symm.trans h
  · exact hge

end Sys2Proof

namespace Sys2Proof.Proofs

open Sys2Proof.Claims

/-- Settles O1: format by format, an operand word is put back in its operand's class. -/
theorem decodeOfEncodeIsTheInstruction : Obligations.DecodeOfEncodeIsTheInstruction :=
  fun _ h rest => decodeWords_encode_append h rest

/-- Settles O2: what decodes was read from an opcode word and operand words, each recovered from its class. -/
theorem decodedWordsAreTheEncoding : Obligations.DecodedWordsAreTheEncoding := by
  intro ws i rest h
  obtain ⟨op, tail, rfl, hread⟩ := decodeWords_ok h
  exact ⟨hread.wf, hread.cons_eq⟩

/-- Settles O3: each row is the row of an instruction, and its opcode with other operand words decodes to that row. -/
theorem opcodeTableRowsDecode : Obligations.OpcodeTableRowsDecode := by
  intro op mn roles hrow ws hlen rest
  obtain ⟨i, hi⟩ := exists_row_eq_of_mem_tableRows hrow
  obtain ⟨rfl, rfl, rfl⟩ : i.opcode = op ∧ i.mnemonic = mn ∧ i.roles = roles := by simpa [Instr.row] using hi
  obtain ⟨j, hj, hrow', hops⟩ := decodeWords_opcode_append i (hlen.trans i.roles_length) rest
  obtain ⟨hop, hmn, hroles⟩ : j.opcode = i.opcode ∧ j.mnemonic = i.mnemonic ∧ j.roles = i.roles := by
    simpa [Instr.row] using hrow'
  refine ⟨j, hj, hop, hmn, hroles, hops, ?_⟩
  rw [Instr.length, ← j.roles_length, hroles]

/-- Settles O4: the decoder evaluated on each word list. -/
theorem exampleWordsDecode : Obligations.ExampleWordsDecode :=
  ⟨rfl, rfl, rfl, rfl, rfl, rfl, rfl, rfl⟩

end Sys2Proof.Proofs
end

section
/-! SUPPORT. The bits of an operand word by its value (30_encoding.md R72). -/

namespace Sys2Proof

/-- Bit 15 of a word says whether it is 32768 or more. -/
theorem getLsbD_fifteen (w : Word) : w.getLsbD 15 = decide (32768 ≤ w.toNat) :=
  BitVec.msb_eq_decide w

/-- The value of n bits of a word from bit k on. -/
theorem toNat_extractLsb'_eq_div_mod (w : Word) (k n : Nat) :
    (w.extractLsb' k n).toNat = w.toNat / 2 ^ k % 2 ^ n := by
  rw [BitVec.extractLsb'_toNat, Nat.shiftRight_eq_div_pow]

/-- A literal's value, zero-extended, is the word (R72). -/
theorem setWidth_setWidth_of_lt {w : Word} (h : w.toNat < 32768) : (w.setWidth 15).setWidth 16 = w := by
  have hw := Operand.toWord_ofWord w
  rwa [Operand.ofWord_literal h] at hw

/-- The bits of a register token: the register number in bits 2..0 and the register pattern above them (R72). -/
theorem registerToken_bits {w : Word} (hlo : 32768 ≤ w.toNat) (hhi : w.toNat ≤ 32775) :
    (w.extractLsb' 0 3).toNat = w.toNat - 32768 ∧ w.extractLsb' 3 13 = 0b1000000000000#13 := by
  refine ⟨?_, BitVec.eq_of_toNat_eq ?_⟩ <;> rw [toNat_extractLsb'_eq_div_mod]
  · omega
  · show w.toNat / 2 ^ 3 % 2 ^ 13 = 4096
    omega

/-- In a word from 32776 on, bits 14..3 are not all zero (R72). -/
theorem extractLsb'_ne_zero_of_invalid {w : Word} (h : 32776 ≤ w.toNat) : w.extractLsb' 3 12 ≠ 0#12 := by
  have hw := w.isLt
  intro hzero
  have hnat : w.toNat / 2 ^ 3 % 2 ^ 12 = 0 := by rw [← toNat_extractLsb'_eq_div_mod, hzero]; rfl
  omega

end Sys2Proof

namespace Sys2Proof.Proofs

/-- Settles O5: the class by the word's value, the bits by division. -/
theorem operandWordsHaveOneClass : Obligations.OperandWordsHaveOneClass := by
  refine ⟨fun w h => ?_, fun w hlo hhi => ?_, fun w h => ?_⟩
  · have hlt : w.toNat < 32768 := Nat.lt_succ_of_le h
    exact ⟨_, Operand.ofWord_literal hlt, setWidth_setWidth_of_lt hlt,
      (getLsbD_fifteen w).trans (decide_eq_false (Nat.not_le.2 hlt))⟩
  · obtain ⟨hnum, hpat⟩ := registerToken_bits hlo hhi
    have hi : w.toNat - 32768 < 8 := by omega
    exact ⟨⟨_, hi⟩, Operand.ofWord_register (Nat.add_sub_cancel' hlo).symm, rfl, hnum.symm, hpat⟩
  · have hge : 32768 ≤ w.toNat := Nat.le_trans (by decide) h
    exact ⟨Operand.ofWord_invalid h, (getLsbD_fifteen w).trans (decide_eq_true hge),
      extractLsb'_ne_zero_of_invalid h⟩

end Sys2Proof.Proofs
end

section
/-! SUPPORT. The decoder on the words of memory: the fetch at an illegal opcode word (40_step_and_operands.md R92), and one
turn of the disassembly walk (30_encoding.md R84). -/

namespace Sys2Proof.Machine

open Sys2Proof.Claims

/-! ### The words of an instruction in memory -/

/-- An encoding is as long as its instruction (R70, R79). -/
theorem encode_length (i : Instr) : (encode i).length = i.length := by
  simp [encode, Instr.length, Nat.add_comm]

/-- Where an instruction stands before the end, the first words read there are its encoding. -/
theorem wordsFrom_take_of_standsAt {i : Instr} {m : Memory} {stop p : Nat} (h : StandsAt i m p)
    (hstop : p + i.length ≤ stop) : (wordsFrom m stop p).take i.length = encode i := by
  have hle : i.length ≤ 4 := Nat.add_le_add_left (operands_length_le i) 1
  refine List.ext_getElem? fun k => ?_
  rcases Nat.lt_or_ge k i.length with hk | hk
  · rw [List.getElem?_take_of_lt hk, wordsFrom_getElem? m stop p (by omega), if_pos (by omega), h k hk]
  · rw [List.getElem?_take_eq_none hk, List.getElem?_eq_none (by rwa [encode_length])]

/-- Where an instruction stands before the end, the words read there begin with its encoding. -/
theorem wordsFrom_eq_encode_append {i : Instr} {m : Memory} {stop p : Nat} (h : StandsAt i m p)
    (hstop : p + i.length ≤ stop) : ∃ tail, wordsFrom m stop p = encode i ++ tail :=
  ⟨(wordsFrom m stop p).drop i.length, by rw [← wordsFrom_take_of_standsAt h hstop, List.take_append_drop]⟩

/-! ### The fetch -/

/-- An opcode word from 22 on makes the fetch raise IllegalOpcode with it (R92). -/
theorem fetch_illegal {s : State} (hpc : s.pc.toNat < 32768) (h : 22 ≤ (readWord s.mem s.pc.toNat).toNat) :
    fetch s = .error ⟨.illegalOpcode, readWord s.mem s.pc.toNat⟩ := by
  obtain ⟨rest, hwords⟩ := wordsFrom_cons (m := s.mem) hpc
  rw [fetch, if_pos hpc, hwords, decodeWords_illegal h]
  rfl

/-! ### The walk -/

/-- The walk ends at the end of the buffer. -/
theorem disassembleFrom_end {m : Memory} {stop p : Nat} (h : stop ≤ p) (fuel : Nat) :
    disassembleFrom m stop fuel p = [] := by
  cases fuel with
  | zero => rfl
  | succ fuel => exact if_neg (Nat.not_lt.2 h)

/-- Before the end, a turn of the walk emits the line at p, or passes over one word. -/
theorem disassembleFrom_succ {m : Memory} {stop p : Nat} (h : p < stop) (fuel : Nat) :
    disassembleFrom m stop (fuel + 1) p =
      (lineAt m stop p).elim (disassembleFrom m stop fuel (p + 1))
        fun x => x.1 :: disassembleFrom m stop fuel (p + x.2) := by
  rw [disassembleFrom, if_pos h]
  cases lineAt m stop p <;> rfl

/-- The line of a whole instruction: its address, mnemonic and operands (R85). -/
theorem lineAt_of_standsAt {i : Instr} {m : Memory} {stop p : Nat} (hwf : i.wf = true) (h : StandsAt i m p)
    (hstop : p + i.length ≤ stop) : lineAt m stop p = some (⟨p, i.mnemonic, i.operands⟩, i.length) := by
  obtain ⟨tail, hwords⟩ := wordsFrom_eq_encode_append h hstop
  have hoperands : i.operands.take ((encode i ++ tail).length - 1) = i.operands :=
    List.take_of_length_le (by simp [encode])
  simp only [lineAt, hwords, List.append_assoc, decodeWords_encode_append hwf, hoperands]

/-- An opcode word from 22 on has no line (R76). -/
theorem lineAt_illegal {m : Memory} {stop p : Nat} (hp : p < stop) (h : 22 ≤ (readWord m p).toNat) :
    lineAt m stop p = none := by
  obtain ⟨rest, hwords⟩ := wordsFrom_cons (m := m) hp
  rw [lineAt, hwords, List.cons_append, decodeWords_illegal h]

/-- The walk passes over an opcode word from 22 on as one word of data (R76, R84). -/
theorem disassembleFrom_illegal {m : Memory} {stop p : Nat} (hp : p < stop) (h : 22 ≤ (readWord m p).toNat) (fuel : Nat) :
    disassembleFrom m stop (fuel + 1) p = disassembleFrom m stop fuel (p + 1) := by
  rw [disassembleFrom_succ hp, lineAt_illegal hp h]
  rfl

/-- The walk emits the line of a whole instruction and goes on after it (R84). -/
theorem disassembleFrom_of_standsAt {i : Instr} {m : Memory} {stop p : Nat} (hwf : i.wf = true) (h : StandsAt i m p)
    (hstop : p + i.length ≤ stop) (fuel : Nat) :
    disassembleFrom m stop (fuel + 1) p =
      ⟨p, i.mnemonic, i.operands⟩ :: disassembleFrom m stop fuel (p + i.length) := by
  have hp : p < stop := by unfold Instr.length at hstop; omega
  rw [disassembleFrom_succ hp, lineAt_of_standsAt hwf h hstop]
  rfl

end Sys2Proof.Machine

namespace Sys2Proof.Proofs

open Sys2Proof.Machine Sys2Proof.Claims

/-- Settles O10: the decoder's answer, the fetch that raises it, and the walk that passes over it. -/
theorem opcodesAbove21AreIllegal : Obligations.OpcodesAbove21AreIllegal := by
  refine ⟨decodeWords_illegal_iff, fun s hen hpc hop => ?_, fun m stop fuel p hp hop => disassembleFrom_illegal hp hop fuel⟩
  refine hen.step_eq ?_
  rw [executeAtPc, fetch_illegal hpc hop]
  rfl

/-- Settles O56: the turns of the walk. -/
theorem disassemblyWalksTheBank : Obligations.DisassemblyWalksTheBank := by
  refine ⟨fun m stop fuel p h => disassembleFrom_end h fuel, fun m stop fuel p i hwf hstop h => ?_,
    fun m stop fuel p hp hop => disassembleFrom_illegal hp hop fuel, fun _ => rfl⟩
  rw [disassembleFrom_of_standsAt hwf h hstop, Instr.length, Nat.add_assoc]

end Sys2Proof.Proofs
end

section
/-! SUPPORT. Operands by their word (40_step_and_operands.md R100, R101), and everything a fetch answers by where pc and
the operand words lie (R91 to R93), carried to the step of an enabled block. -/

namespace Sys2Proof.Machine

open Sys2Proof.Claims

/-! ### Operands by their word -/

/-- A word below 32768 resolves to itself (R100). -/
theorem resolve_ofWord_literal (s : State) {w : Word} (h : w.toNat < 32768) : resolve s (.ofWord w) = .ok w := by
  rw [Operand.ofWord_literal h, resolve_literal, setWidth_setWidth_of_lt h]

/-- A word below 32768 names the memory word at that address (R101). -/
theorem dest_ofWord_literal {w : Word} (h : w.toNat < 32768) : dest (.ofWord w) = .ok (.mem w.toNat) := by
  rw [Operand.ofWord_literal h, dest_literal, BitVec.toNat_setWidth, Nat.mod_eq_of_lt h]

/-! ### The words an instruction is fetched from -/

/-- The first words read, as far as they lie before the end, are those of memory in order. -/
theorem wordsFrom_take_eq_map (m : Memory) {stop p n : Nat} (hn : n ≤ 4) (hstop : p + n ≤ stop) :
    (wordsFrom m stop p).take n = (List.range n).map (fun k => readWord m (p + k)) := by
  refine List.ext_getElem? fun k => ?_
  rcases Nat.lt_or_ge k n with hk | hk
  · rw [List.getElem?_take_of_lt hk, wordsFrom_getElem? m stop p (by omega), if_pos (by omega)]
    simp [hk]
  · rw [List.getElem?_take_eq_none hk, List.getElem?_eq_none (by simpa using hk)]

/-- Where n operand words lie before the end, the words read are the opcode word, those n words, and some rest. -/
theorem wordsFrom_eq_cons_append (m : Memory) {stop p n : Nat} (hn : n ≤ 3) (hstop : p + n < stop) :
    ∃ rest, wordsFrom m stop p =
      readWord m p :: ((List.range n).map (fun k => readWord m (p + 1 + k)) ++ rest) := by
  have htake := wordsFrom_take_eq_map m (n := n + 1) (Nat.succ_le_succ hn) hstop
  refine ⟨(wordsFrom m stop p).drop (n + 1), ?_⟩
  rw [← List.cons_append, ← List.take_append_drop (n + 1) (wordsFrom m stop p), htake]
  simp [List.range_succ_eq_map, Nat.add_assoc, Nat.add_comm 1]

/-- An opcode word with too few words after it misses the first one that is not there (R70, R93). -/
theorem decodeWords_opcode_short (i : Instr) {ws : List Word} (h : ws.length < i.operands.length) :
    decodeWords (i.opcode :: ws) = .error (.missingWord (ws.length + 1)) := by
  cases i with
  | halt | ret | noop => exact absurd h (Nat.not_lt_zero _)
  | push a | pop a | jmp a | call a | out a | inp a =>
    obtain rfl := List.length_eq_zero_iff.1 (Nat.lt_one_iff.1 h)
    rfl
  | set a b | jt a b | jf a b | not a b | rmem a b | wmem a b =>
    match ws, h with
    | [], _ | [_], _ => rfl
  | eq a b c | gt a b c | add a b c | mult a b c | mod a b c | and a b c | or a b c =>
    match ws, h with
    | [], _ | [_], _ | [_, _], _ => rfl

/-- A row of the opcode table has at most three roles (R70, R73). -/
theorem roles_length_le {op : Word} {mn : String} {roles : List Role} (hrow : (op, mn, roles) ∈ tableRows) :
    roles.length ≤ 3 := by
  have hall : ∀ row ∈ tableRows, row.2.2.length ≤ 3 := by decide
  exact hall _ hrow

/-- A row's opcode word with fewer words after it than the row has roles misses the first one that is not there. -/
theorem decodeWords_row_short {op : Word} {mn : String} {roles : List Role} (hrow : (op, mn, roles) ∈ tableRows)
    {ws : List Word} (h : ws.length < roles.length) :
    decodeWords (op :: ws) = .error (.missingWord (ws.length + 1)) := by
  obtain ⟨i, hi⟩ := exists_row_eq_of_mem_tableRows hrow
  obtain ⟨rfl, -, rfl⟩ : i.opcode = op ∧ i.mnemonic = mn ∧ i.roles = roles := by simpa [Instr.row] using hi
  exact decodeWords_opcode_short i (i.roles_length ▸ h)

/-! ### The fetch -/

/-- A pc from 32768 on makes the fetch raise InvalidAddress with it (R91). -/
theorem fetch_pc_outside {s : State} (h : 32768 ≤ s.pc.toNat) : fetch s = .error ⟨.invalidAddress, s.pc⟩ :=
  if_neg (Nat.not_lt.2 h)

/-- The fetch answers the instruction that the words at pc decode to (R90, R92). -/
theorem fetch_of_decodeWords {s : State} {i : Instr} {rest : List Word} (hpc : s.pc.toNat < 32768)
    (h : decodeWords (wordsFrom s.mem 32768 s.pc.toNat) = .ok (i, rest)) : fetch s = .ok i := by
  rw [fetch, if_pos hpc, h]

/-- The fetch answers the well-formed instruction that stands at pc inside memory. -/
theorem fetch_of_standsAt {s : State} {i : Instr} (hwf : i.wf = true) (hend : s.pc.toNat + i.length ≤ 32768)
    (h : StandsAt i s.mem s.pc.toNat) : fetch s = .ok i := by
  have hpc : s.pc.toNat < 32768 := by unfold Instr.length at hend; omega
  obtain ⟨tail, hwords⟩ := wordsFrom_eq_encode_append h hend
  refine fetch_of_decodeWords hpc (rest := tail) ?_
  rw [hwords, decodeWords_encode_append hwf]

/-- At an opcode word of the table whose operand word k would lie at 32768 the fetch raises InvalidAddress with that
address (R93). -/
theorem fetch_operand_outside {s : State} {op : Word} {mn : String} {roles : List Role}
    (hrow : (op, mn, roles) ∈ tableRows) (hop : readWord s.mem s.pc.toNat = op) {k : Nat} (hk : 1 ≤ k)
    (hle : k ≤ roles.length) (hend : s.pc.toNat + k = 32768) :
    fetch s = .error ⟨.invalidAddress, BitVec.ofNat 16 (s.pc.toNat + k)⟩ := by
  have hpc : s.pc.toNat < 32768 := by omega
  have hroles := roles_length_le hrow
  obtain ⟨ws, hwords⟩ := wordsFrom_cons (m := s.mem) hpc
  have hlen : ws.length + 1 = k := by
    have hcount := wordsFrom_length s.mem 32768 s.pc.toNat
    rw [hwords, List.length_cons] at hcount
    omega
  rw [fetch, if_pos hpc, hwords, hop, decodeWords_row_short hrow (by omega), hlen, BitVec.ofNat_add,
    BitVec.ofNat_toNat, BitVec.setWidth_eq]
  rfl

/-- At an opcode word of the table whose operand words lie in memory the fetch answers the row's instruction, its operands
the classes of those words (R92, R93). -/
theorem fetch_of_row {s : State} {op : Word} {mn : String} {roles : List Role} (hrow : (op, mn, roles) ∈ tableRows)
    (hop : readWord s.mem s.pc.toNat = op) (hend : s.pc.toNat + roles.length < 32768) :
    ∃ i : Instr, fetch s = .ok i ∧ i.mnemonic = mn ∧
      i.operands = (List.range roles.length).map (fun k => Operand.ofWord (readWord s.mem (s.pc.toNat + 1 + k))) := by
  obtain ⟨rest, hwords⟩ := wordsFrom_eq_cons_append s.mem (roles_length_le hrow) hend
  obtain ⟨i, hi, -, hmn, -, hops, -⟩ := Proofs.opcodeTableRowsDecode op mn roles hrow
    ((List.range roles.length).map fun k => readWord s.mem (s.pc.toNat + 1 + k)) (by simp) rest
  rw [← hop, ← hwords] at hi
  exact ⟨i, fetch_of_decodeWords (by omega) hi, hmn, hops.trans List.map_map⟩

end Sys2Proof.Machine

namespace Sys2Proof.Claims

open Sys2Proof.Machine

/-! ### The step by what the fetch answers -/

/-- An enabled block's step takes the fault that the fetch raises (R91, R203). -/
theorem Enabled.step_of_fetch_error {s : State} {code : FaultCode} {v : Word} (h : Enabled s)
    (hf : fetch s = .error ⟨code, v⟩) : step s = .next (endStep (faultedWith code v s)) := by
  refine h.step_eq ?_
  rw [executeAtPc, hf]
  rfl

/-- An enabled block's step executes the fetched instruction, which has a next state (R90). -/
theorem Enabled.step_of_fetch_ok {s : State} {i : Instr} (h : Enabled s) (hf : fetch s = .ok i) :
    ∃ t, exec i s = .next t ∧ step s = .next (endStep t) := by
  obtain ⟨t, ht⟩ := exec_next i s
  refine ⟨t, ht, h.step_eq ?_⟩
  rw [executeAtPc, hf, orRaise_ok, ht]

end Sys2Proof.Claims

namespace Sys2Proof.Proofs

open Sys2Proof.Machine Sys2Proof.Claims

/-- Settles O6: the word's class, and what resolving each class answers. -/
theorem resolveFollowsTheWordsClass : Obligations.ResolveFollowsTheWordsClass := by
  intro s w
  refine ⟨fun h => resolve_ofWord_literal s (Nat.lt_succ_of_le h), fun i h => ?_, fun h => ?_⟩
  · rw [Operand.ofWord_register h, resolve_register]
  · rw [Operand.ofWord_invalid h, resolve_invalid]

/-- Settles O7: the word's class, and what each class names as a destination. -/
theorem destFollowsTheWordsClass : Obligations.DestFollowsTheWordsClass := by
  intro w
  refine ⟨fun h => dest_ofWord_literal (Nat.lt_succ_of_le h), fun i h => ?_, fun h => ?_⟩
  · rw [Operand.ofWord_register h, dest_register]
  · rw [Operand.ofWord_invalid h, dest_invalid]

/-- Settles O9: what the fetch answers for a pc outside memory, an illegal opcode word, an operand word outside memory, and
a row whose words all lie in memory. -/
theorem stepFetchesAndDecodes : Obligations.StepFetchesAndDecodes := by
  intro s hen
  refine ⟨fun hpc => hen.step_of_fetch_error (fetch_pc_outside hpc),
    fun hpc hop => hen.step_of_fetch_error (fetch_illegal hpc hop), fun op mn roles hrow _ hop =>
    ⟨fun k hk hle hend => hen.step_of_fetch_error (fetch_operand_outside hrow hop hk hle hend), fun hend => ?_⟩⟩
  obtain ⟨i, hf, hmn, hops⟩ := fetch_of_row hrow hop hend
  obtain ⟨t, ht, hstep⟩ := hen.step_of_fetch_ok hf
  exact ⟨i, t, hmn, hops, ht, hstep⟩

/-- Settles O44: a register that changes is the D operand's, and then no word of memory is stored to. -/
theorem noInstructionWritesRegisterAndMemory : Obligations.NoInstructionWritesRegisterAndMemory := by
  intro i s t r k h hr
  have hreg : dstOperand i = some (.register r) := onlyTheDestinationRegisterChanges i s t r h hr
  by_contra hk
  obtain ⟨hstore, -⟩ := exec_storesAt_of_readByte_ne h hk
  exact not_storesAt_of_register hreg _ hstore

/-- Settles O8: the fetch answers the instruction that stands at pc. -/
theorem stepExecutesTheInstructionAtPc : Obligations.StepExecutesTheInstructionAtPc :=
  fun _ _ hen hwf hend h => hen.step_of_fetch_ok (fetch_of_standsAt hwf hend h)

end Sys2Proof.Proofs
end

section
/-! SUPPORT. What instructions share that name operands: the leftmost invalid operand word faults
(40_step_and_operands.md R94), and a location written changes nothing else (R102, R107). -/

namespace Sys2Proof.Machine

open Sys2Proof.Claims

/-! ### The leftmost invalid operand -/

/-- Taking a fault changes the status record alone (R203). -/
theorem takeFault_eq_faultedWith (code : FaultCode) (v : Word) (s : State) :
    takeFault ⟨code, v⟩ s = faultedWith code v s := rfl

/-- Classifying the first operand faults with the leftmost invalid word, if what follows faults with the leftmost one of
the later operands. -/
theorem orRaise_dest_of_firstInvalid {a : Operand} {rest : List Operand} {w : Word} {s : State} {k : Loc → Result}
    (h : firstInvalid (a :: rest) = some w)
    (hk : firstInvalid rest = some w → ∀ d, k d = .next (faultedWith .invalidAddress w s)) :
    orRaise s (dest a) k = .next (faultedWith .invalidAddress w s) := by
  cases a with
  | literal v => exact hk h _
  | register i => exact hk h _
  | invalid w' =>
    obtain rfl : w' = w := Option.some.inj h
    rfl

/-- Resolving the first operand faults with the leftmost invalid word, if what follows faults with the leftmost one of
the later operands. -/
theorem orRaise_resolve_of_firstInvalid {a : Operand} {rest : List Operand} {w : Word} {s : State} {k : Word → Result}
    (h : firstInvalid (a :: rest) = some w)
    (hk : firstInvalid rest = some w → ∀ v, k v = .next (faultedWith .invalidAddress w s)) :
    orRaise s (resolve s a) k = .next (faultedWith .invalidAddress w s) := by
  cases a with
  | literal v => exact hk h _
  | register i => exact hk h _
  | invalid w' =>
    obtain rfl : w' = w := Option.some.inj h
    rfl

/-- Resolving the last operand faults with it where it is the leftmost invalid one. -/
theorem orRaise_resolve_of_firstInvalid_last {a : Operand} {w : Word} {s : State} {k : Word → Result}
    (h : firstInvalid [a] = some w) : orRaise s (resolve s a) k = .next (faultedWith .invalidAddress w s) :=
  orRaise_resolve_of_firstInvalid h nofun

/-! ### A location written -/

/-- A state with the registers and memory of s, in which d is written, differs from s in these at d alone. -/
theorem written_advance_writeLoc {s u : State} (hregs : u.regs = s.regs) (hmem : u.mem = s.mem) (d : Loc) (v : Word)
    (n : Nat) : Written d v s (advance n (writeLoc d v u)) := by
  have hread : ∀ r, readReg u r = readReg s r := fun r => by rw [readReg, hregs, readReg]
  cases d with
  | reg i =>
    refine ⟨readReg_writeReg_same i v u, fun r hne => ?_, fun k => congrArg (readByte · k) hmem⟩
    exact (readReg_writeReg_ne v u hne).trans (hread r)
  | mem a =>
    refine ⟨readWord_writeWord_same u.mem a v, fun k hlow hhigh => ?_, hread⟩
    rw [advance_mem, writeLoc_mem, writeMem_mem, readByte_writeWord, if_neg hhigh, if_neg hlow, hmem]

/-- Writing a location and going on leaves stack, status, ports and host side as before. -/
theorem sameRest_advance_writeLoc (d : Loc) (v : Word) (n : Nat) (s : State) :
    SameRest s (advance n (writeLoc d v s)) := by
  simp [SameRest, SameHostSide]

/-- The whole next state of an instruction of two operands that writes one location: the location, pc, nothing else. -/
theorem written_pc_sameRest_two (d : Loc) (v : Word) (s : State) :
    Written d v s (advance 2 (writeLoc d v s)) ∧ (advance 2 (writeLoc d v s)).pc = s.pc + 3 ∧
      SameRest s (advance 2 (writeLoc d v s)) :=
  ⟨written_advance_writeLoc rfl rfl d v 2, by rw [advance_pc, nextPc_two, writeLoc_pc],
    sameRest_advance_writeLoc d v 2 s⟩

/-! ### The stack's capacity and the memory index -/

/-- A stack of STACK_DEPTH entries is full (R9). -/
theorem stackFull_of_full {s : State} (h : Full s) : stackFull s = true := (stackFull_iff s).2 ⟨_, h, Nat.le_refl _⟩

/-- A stack of fewer entries is not full (R9). -/
theorem stackFull_of_notFull {s : State} (h : NotFull s) : stackFull s = false := by
  rw [Bool.eq_false_iff, Ne, stackFull_iff]
  rintro ⟨n, hn, hle⟩
  exact Nat.not_lt.2 hle (h n hn)

/-- A value below 32768 is a memory index (R127). -/
theorem memIndex_of_lt {v : Word} (h : v.toNat < 32768) : memIndex v = .ok v.toNat := if_pos h

/-- A value from 32768 on is no memory index (R127). -/
theorem memIndex_of_ge {v : Word} (h : 32768 ≤ v.toNat) : memIndex v = .error ⟨.invalidAddress, v⟩ :=
  if_neg (Nat.not_lt.2 h)

end Sys2Proof.Machine
end

section
/-! SUPPORT. The data movement instructions set, push, pop, rmem and wmem (41_data_movement.md R120 to R128): what each
answers once its operands are classified. -/

namespace Sys2Proof.Machine

open Sys2Proof.Claims

variable {s : State} {a b : Operand} {d : Loc} {v va : Word}

/-! ### The next state -/

theorem exec_set_of_ok (ha : dest a = .ok d) (hb : resolve s b = .ok v) :
    exec (.set a b) s = .next (advance 2 (writeLoc d v s)) := by
  simp only [exec, execSet, ha, hb, orRaise_ok]

theorem exec_push_of_ok (ha : resolve s a = .ok v) :
    exec (.push a) s =
      if stackFull s then .next (faultedWith .stackOverflow v s) else .next (advance 1 (stackPush v s)) := by
  simp only [exec, execPush, ha, orRaise_ok, takeFault_eq_faultedWith]

theorem exec_pop_of_cons {rest : List Word} (ha : dest a = .ok d) (hs : s.stack = v :: rest) :
    exec (.pop a) s = .next (advance 1 (writeLoc d v (setStack rest s))) := by
  simp only [exec, execPop, ha, hs, orRaise_ok]

theorem exec_pop_of_nil (ha : dest a = .ok d) (hs : s.stack = []) :
    exec (.pop a) s = .next (faultedWith .stackUnderflow 0 s) := by
  simp only [exec, execPop, ha, hs, orRaise_ok, takeFault_eq_faultedWith]

theorem exec_rmem_of_ok (ha : dest a = .ok d) (hb : resolve s b = .ok v) :
    exec (.rmem a b) s = orRaise s (memIndex v) fun x => .next (advance 2 (writeLoc d (readWord s.mem x) s)) := by
  simp only [exec, execRmem, ha, hb, orRaise_ok]

/-- wmem writes the location Mem(va), whatever class its first operand is in (R128). -/
theorem exec_wmem_of_ok (ha : resolve s a = .ok va) (hb : resolve s b = .ok v) :
    exec (.wmem a b) s = orRaise s (memIndex va) fun x => .next (advance 2 (writeLoc (.mem x) v s)) := by
  simp only [exec, execWmem, ha, hb, orRaise_ok, writeLoc_mem]

end Sys2Proof.Machine

namespace Sys2Proof.Proofs

open Sys2Proof.Machine Sys2Proof.Claims

/-- Settles O14: the value is written to the location, and the operands are checked from left to right. -/
theorem setCopiesTheValue : Obligations.SetCopiesTheValue := by
  refine ⟨fun _ _ _ => rfl, fun s a b d v ha hb => ?_, fun s a b w h => ?_⟩
  · exact ⟨_, exec_set_of_ok ha hb, written_pc_sameRest_two d v s⟩
  · exact orRaise_dest_of_firstInvalid h fun h _ => orRaise_resolve_of_firstInvalid_last h

/-- Settles O16: the top of the stack is written to the location, which is checked before the stack. -/
theorem popTakesTheTopOfTheStack : Obligations.PopTakesTheTopOfTheStack := by
  refine ⟨fun _ _ => rfl, fun s a d v rest ha hs => ?_, fun s a d ha hs => exec_pop_of_nil ha hs, fun _ _ => rfl⟩
  have hexec := exec_pop_of_cons ha hs
  refine ⟨_, hexec, written_advance_writeLoc (u := setStack rest s) rfl rfl d v 1, ?_, by simp, by simp, by simp,
    by simp, exec_sameHostSide hexec⟩
  rw [advance_pc, nextPc_one, writeLoc_pc, setStack_pc]

/-- Settles O17: the resolved value is a memory index or faults, and the operands are checked from left to right before
it. -/
theorem rmemReadsAMemoryWord : Obligations.RmemReadsAMemoryWord := by
  refine ⟨fun _ _ _ => rfl, fun s a b d v ha hb hlt => ?_, fun s a b d v ha hb hge => ?_, fun s a b w h => ?_⟩
  · exact ⟨_, by rw [exec_rmem_of_ok ha hb, memIndex_of_lt hlt, orRaise_ok],
      written_pc_sameRest_two d (readWord s.mem v.toNat) s⟩
  · rw [exec_rmem_of_ok ha hb, memIndex_of_ge hge, orRaise_error, takeFault_eq_faultedWith]
  · exact orRaise_dest_of_firstInvalid h fun h _ => orRaise_resolve_of_firstInvalid_last h

/-- Settles O18: the first operand's value is a memory index or faults, and the operands are checked from left to right
before it. -/
theorem wmemWritesAMemoryWord : Obligations.WmemWritesAMemoryWord := by
  refine ⟨fun _ _ _ => rfl, fun s a b va v ha hb hlt => ?_, fun s a b va v ha hb hge => ?_, fun s a b w h => ?_⟩
  · exact ⟨_, by rw [exec_wmem_of_ok ha hb, memIndex_of_lt hlt, orRaise_ok],
      written_pc_sameRest_two (.mem va.toNat) v s⟩
  · rw [exec_wmem_of_ok ha hb, memIndex_of_ge hge, orRaise_error, takeFault_eq_faultedWith]
  · exact orRaise_resolve_of_firstInvalid h fun h _ => orRaise_resolve_of_firstInvalid_last h

/-- Settles O15: the capacity decides between the value on the stack and StackOverflow with it. -/
theorem pushPutsTheValueOnTheStack : Obligations.PushPutsTheValueOnTheStack := by
  refine ⟨fun _ _ => rfl, fun s a v ha hroom => ?_, fun s a v ha hfull => ?_, fun _ _ => rfl⟩
  · rw [exec_push_of_ok ha, stackFull_of_notFull hroom, if_neg Bool.false_ne_true, advance, nextPc_one]
    rfl
  · rw [exec_push_of_ok ha, stackFull_of_full hfull, if_pos rfl]

end Sys2Proof.Proofs
end

section
/-! SUPPORT. The comparison, arithmetic and logic instructions (42_alu.md R140 to R148): what each ALU operation computes,
and what the instructions answer once their operands are classified. -/

namespace Sys2Proof.Machine

open Sys2Proof.Claims

/-! ### The operations -/

/-- The word of a comparison is 1 or 0 (R28). -/
theorem boolWord_decide (p : Prop) [Decidable p] : boolWord (decide p) = if p then 1 else 0 := by
  simp only [boolWord, decide_eq_true_eq]

/-- A result reduced modulo 32768 is below 32768 (R140). -/
theorem toNat_reduced_lt (n : Nat) : (BitVec.ofNat 16 (n % Config.arithMod)).toNat < 32768 :=
  (Nat.mod_le _ _).trans_lt (Nat.mod_lt n (by decide))

/-- A divisor other than 0 gives the natural remainder (R145). -/
theorem aluMod_of_ne_zero (v1 : Word) {v2 : Word} (h : v2 ≠ 0) :
    aluMod v1 v2 = .ok (BitVec.ofNat 16 (v1.toNat % v2.toNat)) := if_neg h

/-- The divisor 0 raises DivideByZero(0) (R145). -/
theorem aluMod_zero (v1 : Word) : aluMod v1 0 = .error ⟨.divideByZero, 0⟩ := if_pos rfl

/-- Masking a complement is complementing under the mask: bit by bit, and distributes over xor. -/
theorem not_and_eq_and_xor (v m : Word) : ~~~v &&& m = (v &&& m) ^^^ m := by
  ext i hi
  simpa using Bool.and_xor_distrib_right v[i] true m[i]

/-- The two forms of not's result agree (R148). -/
theorem aluNot_eq_and_xor (v : Word) : aluNot v = (v &&& 0x7FFF) ^^^ 0x7FFF := not_and_eq_and_xor v 0x7FFF

/-- Bit 15 of the mask of not is 0 (R148). -/
theorem aluNot_lt (v : Word) : (aluNot v).toNat < 32768 := by
  rw [aluNot, BitVec.toNat_and]
  exact Nat.and_le_right.trans_lt (by decide)

/-! ### The next state -/

section

variable {s : State} {a b c : Operand} {d : Loc} {v v1 v2 : Word} {op : Word → Word → Except Raised Word}

/-- With its operands classified, an F3 instruction goes on with its operation's answer. -/
theorem binaryAlu_of_operands (ha : dest a = .ok d) (hb : resolve s b = .ok v1) (hc : resolve s c = .ok v2) :
    binaryAlu op a b c s = orRaise s (op v1 v2) fun v => .next (advance 3 (writeLoc d v s)) := by
  simp only [binaryAlu, ha, hb, hc, orRaise_ok]

/-- The whole next state of an F3 instruction whose operation answers v: the location, pc, nothing else. -/
theorem binaryAlu_writes (ha : dest a = .ok d) (hb : resolve s b = .ok v1) (hc : resolve s c = .ok v2)
    (hv : op v1 v2 = .ok v) :
    ∃ t, binaryAlu op a b c s = .next t ∧ Written d v s t ∧ t.pc = s.pc + 4 ∧ SameRest s t := by
  refine ⟨advance 3 (writeLoc d v s), ?_, written_advance_writeLoc rfl rfl d v 3, ?_, sameRest_advance_writeLoc d v 3 s⟩
  · rw [binaryAlu_of_operands ha hb hc, hv, orRaise_ok]
  · rw [advance_pc, nextPc_three, writeLoc_pc]

/-- The operands of an F3 instruction are checked from left to right, before its operation (R94). -/
theorem binaryAlu_firstInvalid {w : Word} (h : firstInvalid [a, b, c] = some w) :
    binaryAlu op a b c s = .next (faultedWith .invalidAddress w s) :=
  orRaise_dest_of_firstInvalid h fun h _ => orRaise_resolve_of_firstInvalid h fun h _ =>
    orRaise_resolve_of_firstInvalid_last h

theorem exec_mod : exec (.mod a b c) s = binaryAlu aluMod a b c s := rfl

theorem exec_not_of_ok (ha : dest a = .ok d) (hb : resolve s b = .ok v) :
    exec (.not a b) s = .next (advance 2 (writeLoc d (aluNot v) s)) := by
  simp only [exec, execNot, ha, hb, orRaise_ok]

end

/-- An F3 instruction whose meaning is the common shape with an operation that never raises writes the operation's value. -/
theorem writesOf_of_binaryAlu {mk : Operand → Operand → Operand → Instr} {opcode : Word} {alu f : Word → Word → Word}
    (henc : EncodedF3 mk opcode)
    (hexec : ∀ a b c s, exec (mk a b c) s = binaryAlu (fun v1 v2 => .ok (alu v1 v2)) a b c s)
    (halu : ∀ v1 v2, alu v1 v2 = f v1 v2) : WritesOf mk opcode f := by
  refine ⟨henc, fun s a b c d v1 v2 ha hb hc => ?_, fun s a b c w h => ?_⟩
  · rw [hexec, ← halu]
    exact binaryAlu_writes ha hb hc rfl
  · rw [hexec]
    exact binaryAlu_firstInvalid h

end Sys2Proof.Machine

namespace Sys2Proof.Proofs

open Sys2Proof.Machine Sys2Proof.Claims

/-- Settles O23: with its operands classified, the divisor decides between the remainder and DivideByZero. -/
theorem modIsTheRemainder : Obligations.ModIsTheRemainder := by
  refine ⟨fun _ _ _ _ => rfl, fun s a b c d v1 v2 ha hb hc hne => ?_, fun s a b c d v1 ha hb hc => ?_,
    fun s a b c w h => ?_⟩ <;> rw [exec_mod]
  · exact binaryAlu_writes ha hb hc (aluMod_of_ne_zero v1 hne)
  · rw [binaryAlu_of_operands ha hb hc, aluMod_zero, orRaise_error, takeFault_eq_faultedWith]
  · exact binaryAlu_firstInvalid h

/-- Settles O19: the word of the equality. -/
theorem eqWritesOneOrZero : Obligations.EqWritesOneOrZero :=
  writesOf_of_binaryAlu (fun _ _ _ _ => rfl) (fun _ _ _ _ => rfl) fun v1 v2 => boolWord_decide (v1 = v2)

/-- Settles O20: the word of the strict unsigned comparison. -/
theorem gtWritesOneOrZero : Obligations.GtWritesOneOrZero :=
  writesOf_of_binaryAlu (fun _ _ _ _ => rfl) (fun _ _ _ _ => rfl) fun v1 v2 => boolWord_decide (v2.toNat < v1.toNat)

/-- Settles O21: the ALU's sum is the statement's own. -/
theorem addIsTheSumModulo32768 : Obligations.AddIsTheSumModulo32768 :=
  writesOf_of_binaryAlu (alu := aluAdd) (fun _ _ _ _ => rfl) (fun _ _ _ _ => rfl) fun _ _ => rfl

/-- Settles O22: the ALU's product is the statement's own. -/
theorem multIsTheProductModulo32768 : Obligations.MultIsTheProductModulo32768 :=
  writesOf_of_binaryAlu (alu := aluMult) (fun _ _ _ _ => rfl) (fun _ _ _ _ => rfl) fun _ _ => rfl

/-- Settles O24: the ALU's and is the statement's own. -/
theorem andIsBitwiseOn16Bits : Obligations.AndIsBitwiseOn16Bits :=
  writesOf_of_binaryAlu (alu := aluAnd) (fun _ _ _ _ => rfl) (fun _ _ _ _ => rfl) fun _ _ => rfl

/-- Settles O25: the ALU's or is the statement's own. -/
theorem orIsBitwiseOn16Bits : Obligations.OrIsBitwiseOn16Bits :=
  writesOf_of_binaryAlu (alu := aluOr) (fun _ _ _ _ => rfl) (fun _ _ _ _ => rfl) fun _ _ => rfl

/-- Settles O26: the masked complement is written, and the operands are checked from left to right. -/
theorem notComplements15Bits : Obligations.NotComplements15Bits := by
  refine ⟨fun _ _ _ => rfl, fun s a b d v ha hb => ?_, fun s a b w h => ?_⟩
  · rw [← aluNot_eq_and_xor]
    exact ⟨_, exec_not_of_ok ha hb, written_pc_sameRest_two d (aluNot v) s⟩
  · exact orRaise_dest_of_firstInvalid h fun h _ => orRaise_resolve_of_firstInvalid_last h

/-- Settles O27: the sum and the product commute before they are reduced, and a result is reduced or masked below 32768. -/
theorem sumsAndProductsWrapBelow32768 : Obligations.SumsAndProductsWrapBelow32768 := by
  intro v1 v2
  refine ⟨?_, ?_, toNat_reduced_lt _, toNat_reduced_lt _, aluNot_lt v1⟩
  · rw [aluAdd, Nat.add_comm, ← aluAdd]
  · rw [aluMult, Nat.mul_comm, ← aluMult]

end Sys2Proof.Proofs
end

section
/-! SUPPORT. The control flow instructions halt, jmp, jt, jf, call, ret and noop (43_control_flow.md R160 to R168): what
each answers once its operands are resolved, with the sequential pc written out. -/

namespace Sys2Proof.Machine

open Sys2Proof.Claims

variable {s : State} {a b : Operand} {v t : Word}

/-! ### The sequential pc and the branch test -/

/-- Going on past an opcode word alone. -/
theorem advance_zero (s : State) : advance 0 s = { s with pc := s.pc + 1 } := by rw [advance, nextPc_zero, setPc]

/-- Going on past an opcode word and two operand words. -/
theorem advance_two (s : State) : advance 2 s = { s with pc := s.pc + 3 } := by rw [advance, nextPc_two, setPc]

/-- Every word but 0 is true (R28). -/
theorem isNonzero_of_ne (h : v ≠ 0) : isNonzero v = true := decide_eq_true h

/-- The word 0 is false (R28). -/
theorem isNonzero_zero : isNonzero 0 = false := rfl

/-! ### The next state -/

theorem exec_halt : exec .halt s = .next (haltMachine (advance 0 s)) := rfl

theorem exec_jmp_of_ok (ha : resolve s a = .ok t) : exec (.jmp a) s = .next (setPc t s) := by
  simp only [exec, execJmp, ha, orRaise_ok]

theorem exec_jt_of_ok (ha : resolve s a = .ok v) (hb : resolve s b = .ok t) :
    exec (.jt a b) s = if isNonzero v then .next (setPc t s) else .next (advance 2 s) := by
  simp only [exec, execJt, ha, hb, orRaise_ok]

theorem exec_jf_of_ok (ha : resolve s a = .ok v) (hb : resolve s b = .ok t) :
    exec (.jf a b) s = if isNonzero v then .next (advance 2 s) else .next (setPc t s) := by
  simp only [exec, execJf, ha, hb, orRaise_ok]

theorem exec_call_of_ok (ha : resolve s a = .ok t) :
    exec (.call a) s =
      if stackFull s then .next (faultedWith .stackOverflow (s.pc + 2) s)
      else .next (setPc t (stackPush (s.pc + 2) s)) := by
  simp only [exec, execCall, ha, orRaise_ok, takeFault_eq_faultedWith, nextPc_one]

theorem exec_ret_of_cons {rest : List Word} (hs : s.stack = t :: rest) :
    exec .ret s = .next (setPc t (setStack rest s)) := by
  simp only [exec, execRet, hs]

theorem exec_ret_of_nil (hs : s.stack = []) : exec .ret s = .next (haltMachine (advance 0 s)) := by
  simp only [exec, execRet, hs]

theorem exec_noop : exec .noop s = .next (advance 0 s) := rfl

end Sys2Proof.Machine

namespace Sys2Proof.Proofs

open Sys2Proof.Machine Sys2Proof.Claims

/-- Settles O28: the pc is advanced past the one word and the machine halted. -/
theorem haltEndsTheRun : Obligations.HaltEndsTheRun :=
  ⟨fun _ => rfl, fun s => by rw [exec_halt, advance_zero, haltMachine]⟩

/-- Settles O29: the resolved value is written to pc, and no check follows. -/
theorem jmpGoesToTheValue : Obligations.JmpGoesToTheValue :=
  ⟨fun _ _ => rfl, fun _ _ _ ha => exec_jmp_of_ok ha, fun _ _ => rfl⟩

/-- Settles O30: with both operands resolved, a true test sets pc to the target and a false one goes on past the words. -/
theorem jtJumpsIfNotZero : Obligations.JtJumpsIfNotZero := by
  refine ⟨fun _ _ _ => rfl, fun s a b v t ha hb hne => ?_, fun s a b t ha hb => ?_, fun s a b w h => ?_⟩
  · rw [exec_jt_of_ok ha hb, isNonzero_of_ne hne, if_pos rfl, setPc]
  · rw [exec_jt_of_ok ha hb, isNonzero_zero, if_neg Bool.false_ne_true, advance_two]
  · exact orRaise_resolve_of_firstInvalid h fun h _ => orRaise_resolve_of_firstInvalid_last h

/-- Settles O31: with both operands resolved, a false test sets pc to the target and a true one goes on past the words. -/
theorem jfJumpsIfZero : Obligations.JfJumpsIfZero := by
  refine ⟨fun _ _ _ => rfl, fun s a b t ha hb => ?_, fun s a b v t ha hb hne => ?_, fun s a b w h => ?_⟩
  · rw [exec_jf_of_ok ha hb, isNonzero_zero, if_neg Bool.false_ne_true, setPc]
  · rw [exec_jf_of_ok ha hb, isNonzero_of_ne hne, if_pos rfl, advance_two]
  · exact orRaise_resolve_of_firstInvalid h fun h _ => orRaise_resolve_of_firstInvalid_last h

/-- Settles O32: the capacity decides between the jump with the return address pushed and StackOverflow with it. -/
theorem callPushesTheReturnAddress : Obligations.CallPushesTheReturnAddress := by
  refine ⟨fun _ _ => rfl, fun s a t ha hroom => ?_, fun s a t ha hfull => ?_, fun _ _ => rfl⟩
  · rw [exec_call_of_ok ha, stackFull_of_notFull hroom, if_neg Bool.false_ne_true, stackPush, setPc]
  · rw [exec_call_of_ok ha, stackFull_of_full hfull, if_pos rfl]

/-- Settles O33: the stack decides between the jump to its top entry and the halt past the one word. -/
theorem retReturnsOrHalts : Obligations.RetReturnsOrHalts := by
  refine ⟨fun _ => rfl, fun s t rest hs => ?_, fun s hs => ?_⟩
  · rw [exec_ret_of_cons hs, setStack, setPc]
  · rw [exec_ret_of_nil hs, advance_zero, haltMachine]

/-- Settles O34: the pc is advanced past the one word. -/
theorem noopOnlyAdvances : Obligations.NoopOnlyAdvances :=
  ⟨fun _ => rfl, fun s => by rw [exec_noop, advance_zero]⟩

end Sys2Proof.Proofs
end

section
/-! SUPPORT. The character ports (44_io.md R180 to R185): what out and in answer once their operand is classified, and
what every effect makes of the output stream and the input queue. -/

namespace Sys2Proof.Machine

open Sys2Proof.Claims

variable {s : State} {a : Operand} {d : Loc} {v : Word} {rest : List Word}

/-! ### The next state -/

/-- Going on past an opcode word and one operand word. -/
theorem advance_one (s : State) : advance 1 s = { s with pc := s.pc + 2 } := by rw [advance, nextPc_one, setPc]

/-- The character sent for a word is the word modulo 256 (R181). -/
theorem lowByte_eq_ofNat_mod (v : Word) : lowByte v = BitVec.ofNat 8 (v.toNat % 256) := by
  apply BitVec.eq_of_toNat_eq
  simp [lowByte]

theorem exec_out_of_ok (ha : resolve s a = .ok v) : exec (.out a) s = .next (advance 1 (emit (lowByte v) s)) := by
  simp only [exec, execOut, ha, orRaise_ok]

theorem exec_inp_of_cons (ha : dest a = .ok d) (hin : s.input = v :: rest) :
    exec (.inp a) s = .next (advance 1 (writeLoc d v (setInput rest s))) := by
  simp only [exec, execIn, ha, hin, orRaise_ok]

theorem exec_inp_of_nil (ha : dest a = .ok d) (hin : s.input = []) : exec (.inp a) s = .next (pause .input s) := by
  simp only [exec, execIn, ha, hin, orRaise_ok]

/-! ### The ports -/

/-- An effect keeps the output stream, or it is that of out, which appends one character (R180, R181). -/
theorem Effect.output_cases {i : Instr} {t : State} (h : Effect s i t) :
    t.output = s.output ∨ ((∃ a, i = .out a) ∧ ∃ c, t.output = s.output ++ [c]) := by
  cases h with
  | out => exact .inr ⟨⟨_, rfl⟩, _, rfl⟩
  | jt | jf => left; split <;> rfl
  | _ => left; simp

/-- An effect keeps the input queue, or it is that of in, which takes the head (R183, R184). -/
theorem Effect.input_cases {i : Instr} {t : State} (h : Effect s i t) :
    t.input = s.input ∨ ((∃ a, i = .inp a) ∧ ∃ v, s.input = v :: t.input) := by
  cases h with
  | inp _ hin => exact .inr ⟨⟨_, rfl⟩, _, by simpa using hin⟩
  | jt | jf => left; split <;> rfl
  | _ => left; simp

end Sys2Proof.Machine

namespace Sys2Proof.Proofs

open Sys2Proof.Machine Sys2Proof.Claims

/-- Settles O36: the operand is checked first; then the queue decides between its head written to the location and the
pause. -/
theorem inTakesOneWordOrPauses : Obligations.InTakesOneWordOrPauses := by
  refine ⟨fun _ _ => rfl, fun s a d v rest ha hin => ?_, fun s a d ha hin => exec_inp_of_nil ha hin, fun _ _ => rfl⟩
  have hexec := exec_inp_of_cons ha hin
  refine ⟨_, hexec, written_advance_writeLoc (u := setInput rest s) rfl rfl d v 1, ?_, by simp, by simp, by simp,
    by simp, exec_sameHostSide hexec⟩
  rw [advance_pc, nextPc_one, writeLoc_pc, setInput_pc]

/-- Settles O41: a fault and a pause keep both ports, and so does every effect but those of out and in. -/
theorem onlyOutSendsAndOnlyInTakes : Obligations.OnlyOutSendsAndOnlyInTakes := by
  intro i s t h
  rcases exec_next_cases h with ⟨e, -, rfl⟩ | ⟨a, -, -, rfl⟩ | heff
  · exact ⟨.inl rfl, .inl rfl⟩
  · exact ⟨.inl rfl, .inl rfl⟩
  · exact ⟨heff.output_cases, heff.input_cases⟩

/-- Settles O35: the low byte of the resolved value is its remainder modulo 256. -/
theorem outSendsTheLowByte : Obligations.OutSendsTheLowByte := by
  refine ⟨fun _ _ => rfl, fun s a v ha => ?_, fun _ _ => rfl⟩
  rw [exec_out_of_ok ha, advance_one, lowByte_eq_ofNat_mod, emit]

end Sys2Proof.Proofs
end

section
/-! SUPPORT. The faults of each instruction (60_exceptions.md R201, R202): what an executed instruction may raise, said
as one relation, and that it raises nothing else. -/

namespace Sys2Proof.Machine

/-- What instruction i may raise in s (R202), with the fault values of R201. -/
inductive MayRaise (s : State) : Instr → Raised → Prop
  | operand {i : Instr} {w : Word} (hw : .invalid w ∈ i.operands) : MayRaise s i ⟨.invalidAddress, w⟩
  | rmem {a b : Operand} {v : Word} (hb : resolve s b = .ok v) (hge : 32768 ≤ v.toNat) :
      MayRaise s (.rmem a b) ⟨.invalidAddress, v⟩
  | wmem {a b : Operand} {va : Word} (ha : resolve s a = .ok va) (hge : 32768 ≤ va.toNat) :
      MayRaise s (.wmem a b) ⟨.invalidAddress, va⟩
  | pop {a : Operand} (hs : s.stack = []) : MayRaise s (.pop a) ⟨.stackUnderflow, 0⟩
  | mod {a b c : Operand} (hc : resolve s c = .ok 0) : MayRaise s (.mod a b c) ⟨.divideByZero, 0⟩
  | push {a : Operand} {v : Word} (ha : resolve s a = .ok v) (hf : stackFull s = true) :
      MayRaise s (.push a) ⟨.stackOverflow, v⟩
  | call {a : Operand} (hf : stackFull s = true) : MayRaise s (.call a) ⟨.stackOverflow, s.pc + 2⟩

/-- The result r, of instruction i in s, is a fault taken that i may raise, or a next state without a new fault. -/
def RaisesOnlyItsOwn (i : Instr) (s : State) (r : Result) : Prop :=
  (∃ e, MayRaise s i e ∧ r = .next (takeFault e s)) ∨ ∃ t, r = .next t ∧ (s.unfaulted → t.unfaulted)

section

variable {i : Instr} {s : State} {a b c : Operand}

/-! ### The checks of an instruction -/

/-- A next state with the status record as before has no new fault. -/
theorem raisesOnlyItsOwn_next {t : State} (h : t.status = s.status := by simp) : RaisesOnlyItsOwn i s (.next t) :=
  .inr ⟨t, rfl, fun hs => by rwa [State.unfaulted, h]⟩

/-- A check whose error the instruction may raise, and what follows it. -/
theorem raisesOnlyItsOwn_orRaise {α : Type} {x : Except Raised α} {k : α → Result}
    (he : ∀ e, x = .error e → MayRaise s i e) (hk : ∀ v, x = .ok v → RaisesOnlyItsOwn i s (k v)) :
    RaisesOnlyItsOwn i s (orRaise s x k) := by
  cases x with
  | error e => exact .inl ⟨e, he e rfl, rfl⟩
  | ok v => exact hk v rfl

/-- Classifying a destination operand of the instruction. -/
theorem raisesOnlyItsOwn_dest {k : Loc → Result} (hk : ∀ d, RaisesOnlyItsOwn i s (k d))
    (ha : a ∈ i.operands := by simp [Instr.operands]) : RaisesOnlyItsOwn i s (orRaise s (dest a) k) := by
  cases a with
  | literal v => exact hk _
  | register r => exact hk _
  | invalid w => exact .inl ⟨_, .operand ha, rfl⟩

/-- Resolving an operand of the instruction. -/
theorem raisesOnlyItsOwn_resolve {k : Word → Result} (hk : ∀ v, resolve s a = .ok v → RaisesOnlyItsOwn i s (k v))
    (ha : a ∈ i.operands := by simp [Instr.operands]) : RaisesOnlyItsOwn i s (orRaise s (resolve s a) k) := by
  cases a with
  | literal v => exact hk _ rfl
  | register r => exact hk _ rfl
  | invalid w => exact .inl ⟨_, .operand ha, rfl⟩

/-! ### Each instruction -/

/-- The F3 instructions: beside their operands, only the operation's own check can raise. -/
theorem binaryAlu_raisesOnlyItsOwn {op : Word → Word → Except Raised Word} (hops : i.operands = [a, b, c])
    (hop : ∀ v1 v2 e, resolve s c = .ok v2 → op v1 v2 = .error e → MayRaise s i e) :
    RaisesOnlyItsOwn i s (binaryAlu op a b c s) :=
  raisesOnlyItsOwn_dest (ha := by simp [hops]) fun _ =>
    raisesOnlyItsOwn_resolve (ha := by simp [hops]) fun v1 _ =>
      raisesOnlyItsOwn_resolve (ha := by simp [hops]) fun v2 hc =>
        raisesOnlyItsOwn_orRaise (fun e => hop v1 v2 e hc) fun _ _ => raisesOnlyItsOwn_next

end

theorem execMod_raisesOnlyItsOwn (a b c : Operand) (s : State) :
    RaisesOnlyItsOwn (.mod a b c) s (execMod a b c s) := by
  refine binaryAlu_raisesOnlyItsOwn rfl fun v1 v2 e hc he => ?_
  obtain ⟨rfl, rfl⟩ := aluMod_error he
  exact .mod hc

theorem execRmem_raisesOnlyItsOwn (a b : Operand) (s : State) :
    RaisesOnlyItsOwn (.rmem a b) s (execRmem a b s) := by
  refine raisesOnlyItsOwn_dest fun d => raisesOnlyItsOwn_resolve fun v hb =>
    raisesOnlyItsOwn_orRaise (fun e he => ?_) fun x _ => raisesOnlyItsOwn_next
  obtain ⟨rfl, hge⟩ := memIndex_error he
  exact .rmem hb hge

theorem execWmem_raisesOnlyItsOwn (a b : Operand) (s : State) :
    RaisesOnlyItsOwn (.wmem a b) s (execWmem a b s) := by
  refine raisesOnlyItsOwn_resolve fun va ha => raisesOnlyItsOwn_resolve fun v _ =>
    raisesOnlyItsOwn_orRaise (fun e he => ?_) fun x _ => raisesOnlyItsOwn_next
  obtain ⟨rfl, hge⟩ := memIndex_error he
  exact .wmem ha hge

theorem execPush_raisesOnlyItsOwn (a : Operand) (s : State) : RaisesOnlyItsOwn (.push a) s (execPush a s) := by
  refine raisesOnlyItsOwn_resolve fun v ha => ?_
  split
  · next hf => exact .inl ⟨_, .push ha hf, rfl⟩
  · exact raisesOnlyItsOwn_next

theorem execCall_raisesOnlyItsOwn (a : Operand) (s : State) : RaisesOnlyItsOwn (.call a) s (execCall a s) := by
  refine raisesOnlyItsOwn_resolve fun t _ => ?_
  split
  · next hf => exact .inl ⟨_, .call hf, by rw [nextPc_one]⟩
  · exact raisesOnlyItsOwn_next

theorem execPop_raisesOnlyItsOwn (a : Operand) (s : State) : RaisesOnlyItsOwn (.pop a) s (execPop a s) := by
  refine raisesOnlyItsOwn_dest fun d => ?_
  split
  · next hs => exact .inl ⟨_, .pop hs, rfl⟩
  · exact raisesOnlyItsOwn_next

theorem execIn_raisesOnlyItsOwn (a : Operand) (s : State) : RaisesOnlyItsOwn (.inp a) s (execIn a s) := by
  refine raisesOnlyItsOwn_dest fun d => ?_
  split
  · exact .inr ⟨_, rfl, fun _ => by simp⟩
  · exact raisesOnlyItsOwn_next

theorem execHalt_raisesOnlyItsOwn (i : Instr) (s : State) : RaisesOnlyItsOwn i s (execHalt s) :=
  .inr ⟨_, rfl, fun _ => by simp⟩

theorem execRet_raisesOnlyItsOwn (s : State) : RaisesOnlyItsOwn .ret s (execRet s) := by
  unfold execRet
  split
  · exact execHalt_raisesOnlyItsOwn .ret s
  · exact raisesOnlyItsOwn_next

theorem execJt_raisesOnlyItsOwn (a b : Operand) (s : State) : RaisesOnlyItsOwn (.jt a b) s (execJt a b s) := by
  refine raisesOnlyItsOwn_resolve fun v _ => raisesOnlyItsOwn_resolve fun t _ => ?_
  split <;> exact raisesOnlyItsOwn_next

theorem execJf_raisesOnlyItsOwn (a b : Operand) (s : State) : RaisesOnlyItsOwn (.jf a b) s (execJf a b s) := by
  refine raisesOnlyItsOwn_resolve fun v _ => raisesOnlyItsOwn_resolve fun t _ => ?_
  split <;> exact raisesOnlyItsOwn_next

/-- An executed instruction raises only what it may raise (R202). -/
theorem exec_raisesOnlyItsOwn (i : Instr) (s : State) : RaisesOnlyItsOwn i s (exec i s) := by
  cases i with
  | halt => exact execHalt_raisesOnlyItsOwn .halt s
  | noop => exact raisesOnlyItsOwn_next
  | push a => exact execPush_raisesOnlyItsOwn a s
  | pop a => exact execPop_raisesOnlyItsOwn a s
  | call a => exact execCall_raisesOnlyItsOwn a s
  | ret => exact execRet_raisesOnlyItsOwn s
  | inp a => exact execIn_raisesOnlyItsOwn a s
  | jmp a | out a => exact raisesOnlyItsOwn_resolve fun _ _ => raisesOnlyItsOwn_next
  | jt a b => exact execJt_raisesOnlyItsOwn a b s
  | jf a b => exact execJf_raisesOnlyItsOwn a b s
  | set a b | not a b =>
    exact raisesOnlyItsOwn_dest fun _ => raisesOnlyItsOwn_resolve fun _ _ => raisesOnlyItsOwn_next
  | rmem a b => exact execRmem_raisesOnlyItsOwn a b s
  | wmem a b => exact execWmem_raisesOnlyItsOwn a b s
  | mod a b c => exact execMod_raisesOnlyItsOwn a b c s
  | eq a b c | gt a b c | add a b c | mult a b c | and a b c | or a b c =>
    exact binaryAlu_raisesOnlyItsOwn rfl nofun

end Sys2Proof.Machine

namespace Sys2Proof.Proofs

open Sys2Proof.Machine

/-- Settles O38: a next state that is newly FAULTED is a fault taken that the instruction may raise. -/
theorem faultsPerInstruction : Obligations.FaultsPerInstruction := by
  intro i s t hs h ht
  rcases exec_raisesOnlyItsOwn i s with ⟨e, he, h'⟩ | ⟨u, h', hu⟩ <;>
    obtain rfl := Host.Outcome.next.inj (h.symm.trans h')
  · cases he with
    | operand hw => exact .inl ⟨rfl, hw⟩
    | rmem hb hge => exact .inr (.inl ⟨rfl, hge, _, _, .inl ⟨rfl, hb⟩⟩)
    | wmem ha hge => exact .inr (.inl ⟨rfl, hge, _, _, .inr ⟨rfl, ha⟩⟩)
    | pop => exact .inr (.inr (.inl ⟨rfl, rfl, _, rfl⟩))
    | mod => exact .inr (.inr (.inr (.inl ⟨rfl, rfl, _, _, _, rfl⟩)))
    | push ha => exact .inr (.inr (.inr (.inr ⟨rfl, _, .inl ⟨rfl, ha⟩⟩)))
    | call => exact .inr (.inr (.inr (.inr ⟨rfl, _, .inr ⟨rfl, rfl⟩⟩)))
  · exact absurd ht (hu hs)

end Sys2Proof.Proofs
end

section
/-! SUPPORT. The step of a block with nothing pending (60_exceptions.md R224, R225), and what the host's commands answer
in each STATE (R206, R220 to R229). -/

namespace Sys2Proof.Machine

open Sys2Proof.Claims

/-! ### Commands by STATE -/

theorem hostCommand_run_paused {s : State} (h : s.status.state = .paused) :
    hostCommand .run s = .next (startRun s) := by
  simp [hostCommand, h]

theorem hostCommand_run_not_paused {s : State} (h : s.status.state ≠ .paused) : hostCommand .run s = .next s := by
  cases hs : s.status.state with
  | paused => exact absurd hs h
  | running | halted | faulted => simp [hostCommand, hs]

theorem hostCommand_step_terminal {s : State} (h : s.status.state = .halted ∨ s.status.state = .faulted) :
    hostCommand .step s = .next s := by
  rcases h with h | h <;> simp [hostCommand, h]

theorem hostCommand_stop_running {s : State} (h : s.status.state = .running) :
    hostCommand .stop s = .next (pause .host s) := by
  simp [hostCommand, h]

/-- A command given in HALTED or FAULTED is RESET, or leaves the status record as it is (R206, R241). -/
theorem hostCommand_terminal_cases {c : HostCmd} {s t : State}
    (hs : s.status.state = .halted ∨ s.status.state = .faulted) (h : hostCommand c s = .next t) :
    (∃ image, c = .reset image) ∨ t.status = s.status := by
  cases c with
  | reset image => exact .inl ⟨image, rfl⟩
  | run =>
    rcases hostCommand_run_next h with ⟨hp, -⟩ | rfl
    · simp [hp] at hs
    · exact .inr rfl
  | step =>
    rcases hostCommand_step_next h with ⟨hp, -⟩ | ⟨-, rfl⟩
    · simp [hp] at hs
    · exact .inr rfl
  | stop =>
    obtain ⟨hr, -⟩ := hostCommand_stop_next h
    simp [hr] at hs
  | breakAt | setReg | setPc | enqueue | snapshot | exit =>
    obtain rfl := Host.Outcome.next.inj h
    exact .inr rfl

/-! ### A forced step -/

/-- A block that RUN has just started executes the instruction at pc, whatever the breakpoint is (R222, R224). -/
theorem blockStep_startRun {s u : State} (hu : executeAtPc (startRun s) = .next u) :
    blockStep (startRun s) = .next (endStep u) := by
  rw [blockStep_running rfl (by simp), hu]
  rfl

/-- STEP in PAUSED is the instruction at pc in the started block, FORCE cleared, and the pause after it (R223). -/
theorem hostCommand_step_paused {s u : State} (h : s.status.state = .paused)
    (hu : executeAtPc (startRun s) = .next u) : hostCommand .step s = .next (pauseIfRunning (endStep u)) := by
  simp only [hostCommand, h, singleStep, blockStep_startRun hu]

theorem pauseIfRunning_running {s : State} (h : s.status.state = .running) : pauseIfRunning s = pause .host s := by
  simp [pauseIfRunning, h]

theorem pauseIfRunning_not_running {s : State} (h : s.status.state ≠ .running) : pauseIfRunning s = s := by
  unfold pauseIfRunning
  split
  · next hr => exact absurd hr h
  · rfl

/-! ### When a command is given -/

/-- A command that waits for no step is given at once (R220). -/
theorem step_given {s : State} {c : HostCmd} {rest : List HostAction} (hp : s.pending = ⟨0, c⟩ :: rest) :
    step s = hostCommand c { s with pending := rest } :=
  step_due hp (.inl rfl)

/-- While a command waits, the step of a running block is the block's, and the command then waits for one less (log
entry 3). -/
theorem step_waiting {s : State} {n : Nat} {c : HostCmd} {rest : List HostAction}
    (hp : s.pending = ⟨n + 1, c⟩ :: rest) (hr : s.status.state = .running) :
    step s = blockStep { s with pending := ⟨n, c⟩ :: rest } := by
  simp [step, dueCommand, tick, hp, hr]

end Sys2Proof.Machine

namespace Sys2Proof.Proofs

open Sys2Proof.Machine Sys2Proof.Claims

/-- Settles O11: a block that a breakpoint holds pauses, and one that is not held is enabled. -/
theorem breakpointIsCheckedBeforeEachStep : Obligations.BreakpointIsCheckedBeforeEachStep := by
  intro s hr hp
  refine ⟨fun hb => ?_, fun hb => ?_⟩
  · rw [step_pending_nil hp, blockStep_breakpoint hr hb, pause]
  · obtain ⟨t, ht⟩ := executeAtPc_next s
    exact ⟨t, ht, Enabled.step_eq ⟨hr, hp, hb⟩ ht⟩

/-- Settles O37: of what the instruction at pc and the breakpoint make of a running block's status record, only a fault
is FAULTED. -/
theorem faultsChangeOnlyTheStatusRecord : Obligations.FaultsChangeOnlyTheStatusRecord := by
  intro s t hr hp h hf
  rw [step_pending_nil hp] at h
  obtain ⟨-, ⟨-, -, -, rfl⟩ | ⟨u, hu, rfl⟩⟩ := blockStep_next_cases h
  · cases hf
  · rcases executeAtPc_status_cases hu with ⟨code, v, hcode, rfl⟩ | ⟨-, -, rfl⟩ | ⟨-, hst⟩ | hst
    · exact ⟨code, v, hcode, rfl⟩
    · cases hf
    · simp [hst] at hf
    · simp [hst, hr] at hf

/-- Settles O46: outside RUNNING a step is a command of the host, and only RESET writes a terminal status record. -/
theorem terminalStatesAreLeftOnlyByReset : Obligations.TerminalStatesAreLeftOnlyByReset := by
  intro s t hs h
  rcases step_next_cases h with ⟨n, c, rest, hp, -, hc⟩ | ⟨-, hb⟩
  · rcases hostCommand_terminal_cases (s := { s with pending := rest }) hs hc with ⟨image, rfl⟩ | hst
    · exact .inr ⟨n, image, rest, hp⟩
    · exact .inl hst
  · obtain ⟨plan, htick⟩ := tick_eq s
    obtain ⟨hr, -⟩ := blockStep_next_cases hb
    simp only [htick] at hr
    simp [hr] at hs

/-- Settles O49: the forced step of the started block, then the pause by the STATE it ends in. -/
theorem stepCommandExecutesOneStep : Obligations.StepCommandExecutesOneStep := by
  intro s rest hp
  refine ⟨fun hpaused => ?_, fun hterm => (step_given hp).trans (hostCommand_step_terminal hterm)⟩
  obtain ⟨u, hu⟩ := executeAtPc_next (startRun { s with pending := rest })
  have hstep : step s = .next (pauseIfRunning (endStep u)) :=
    (step_given hp).trans (hostCommand_step_paused hpaused hu)
  exact ⟨u, hu, fun hrun => hstep.trans (congrArg Host.Outcome.next (pauseIfRunning_running (s := endStep u) hrun)),
    fun hne => hstep.trans (congrArg Host.Outcome.next (pauseIfRunning_not_running (s := endStep u) hne))⟩

/-- Settles O13: the waiting command and the due one. -/
theorem pendingCommandWaitsForSteps : Obligations.PendingCommandWaitsForSteps :=
  ⟨fun _ _ _ _ hp hr => step_waiting hp hr, fun _ _ _ _ hp h => step_due hp h⟩

/-- Settles O48: RUN by STATE, and the forced step of the started block. -/
theorem runStartsAForcedStep : Obligations.RunStartsAForcedStep := by
  intro s rest hp
  have hstart : s.status.state = .paused → step s = .next (startRun { s with pending := rest }) :=
    fun hpaused => (step_given hp).trans (hostCommand_run_paused hpaused)
  refine ⟨hstart, fun hne => (step_given hp).trans (hostCommand_run_not_paused hne), fun hpaused hrest t ht => ?_⟩
  obtain rfl := Host.Outcome.next.inj ((hstart hpaused).symm.trans ht)
  obtain ⟨u, hu⟩ := executeAtPc_next (startRun { s with pending := rest })
  exact ⟨u, hu, (step_pending_nil hrest).trans (blockStep_startRun hu)⟩

/-- Settles O50: the command is given at once, and pauses the running block. -/
theorem stopPausesARunningBlock : Obligations.StopPausesARunningBlock :=
  fun _ _ hp hr => (step_given hp).trans (hostCommand_stop_running hr)

/-- Settles O51: the command is given at once; a register write is read back at that register alone. -/
theorem hostOverwritesRegisterOrPc : Obligations.HostOverwritesRegisterOrPc := by
  refine ⟨fun s rest r v hp => ?_, fun s rest a hp => step_given hp⟩
  exact ⟨_, step_given hp, readReg_writeReg_same r v _, fun q hq => readReg_writeReg_ne v _ hq, rfl, rfl⟩

/-- Settles O52: each command is given at once. -/
theorem hostSetsBreakpointAndInput : Obligations.HostSetsBreakpointAndInput :=
  ⟨fun _ _ _ hp => step_given hp, fun _ _ _ hp => step_given hp, fun _ _ hp => step_given hp,
    fun _ _ hp => step_given hp⟩

end Sys2Proof.Proofs
end

section
/-! SUPPORT. FAULT_VALUE of a malformed image (70_reset_and_hazards.md R243), and RESET with one. -/

namespace Sys2Proof.Machine

/-- A malformed image has a FAULT_VALUE: 1 unless it is too long, 2 unless its byte count is odd, and one of the two in
every case, whichever the platform reports first (R201, R243, log entry 6). -/
theorem malformedValue_of_malformed {image : List Byte} (h : image.length % 2 = 1 ∨ 65536 < image.length) :
    ∃ v, malformedValue image = some v ∧ (image.length ≤ 65536 → v = 1) ∧ (image.length % 2 = 0 → v = 2) ∧
      (v = 1 ∨ v = 2) := by
  unfold malformedValue
  simp only [Config.memBytes]
  by_cases hodd : image.length % 2 = 1 <;> by_cases hlong : 65536 < image.length
  · rw [if_pos hodd, if_pos hlong]
    exact ⟨_, rfl, by omega, by omega, by split <;> simp⟩
  · rw [if_pos hodd, if_neg hlong]
    exact ⟨1, rfl, fun _ => rfl, by omega, .inl rfl⟩
  · rw [if_neg hodd, if_pos hlong]
    exact ⟨2, rfl, by omega, fun _ => rfl, .inr rfl⟩
  · exact absurd h (not_or.2 ⟨hodd, hlong⟩)

end Sys2Proof.Machine

namespace Sys2Proof.Proofs

open Sys2Proof.Machine Sys2Proof.Claims

/-- FAULTED is terminal while the host has nothing pending (R31, R206). -/
theorem step_ne_next_of_faulted {s : State} (hp : s.pending = []) (hf : s.status.state = .faulted) (u : State) :
    step s ≠ .next u := by
  obtain ⟨-, -, hstuck⟩ := noStepOutsideRunning s hp
  simp [hstuck hf]

/-- Settles O54: the command is given at once and leaves a reset block in FAULTED, where no step follows. -/
theorem malformedImageFaultsAtLoad : Obligations.MalformedImageFaultsAtLoad := by
  intro s rest image hp hbad
  obtain ⟨v, hv, hfits, heven, hvalue⟩ := malformedValue_of_malformed hbad
  have hstep : step s = .next (resetBlock image { s with pending := rest }) := step_given hp
  rw [resetBlock_malformed hv] at hstep
  exact ⟨_, hstep, readReg_reset, rfl, rfl, rfl, rfl, readWord_nil, rfl, rfl, rfl, rfl, rfl, rfl, rfl, rfl, hfits, heven,
    hvalue, fun hrest => step_ne_next_of_faulted hrest rfl⟩

end Sys2Proof.Proofs
end
